-- ==== Sys2Proof/Word.lean ====
section
/-! DEFINITION. The words of the core: bytes, levels, the seven lines, the six sequencer states, one
micro-operation, and the three code formats H, T and U with their exact widths. -/

namespace Sys2Proof

/-- An unsigned 8-bit value, bit 0 least significant (R11: `u8`). -/
abbrev Byte := BitVec 8

/-- A level of a line: `false` is 0 (low), `true` is 1 (high) (R11, D29). -/
abbrev Level := Bool

/-- The seven logical lines (R24); their numbers are `Line.index` in Decode. -/
inductive Line where
  | oData | oClk | oLatch | oOe | iData | iClk | iLoad
deriving DecidableEq, Repr, Inhabited

/-- The level registers `lvl[L]` of the six output lines (R25); `I_DATA` has none (R26). -/
structure Levels where
  oData  : Level
  oClk   : Level
  oLatch : Level
  oOe    : Level
  iClk   : Level
  iLoad  : Level
deriving DecidableEq, Repr, Inhabited

/-- The six states of the relay sequencer (R19), in the enumerated order. -/
inductive SeqState where
  | rampUp | rampDown | allOn | allOff | haltPending | halted
deriving DecidableEq, Repr, Inhabited

/-- One GPIO micro-operation (R76): what `DRIVE` and `SAMPLE` are lists of. -/
inductive MicroOp where
  /-- Line write (R77). -/
  | set (l : Line) (v : Level)
  /-- Line read (R78). -/
  | get (l : Line)
  /-- Bounded busy-wait of at least `n` microseconds (R79). -/
  | wait (n : Nat)
deriving DecidableEq, Repr

/-- A coded operation, in one of the three formats of 30_encoding.md, each at its own width. -/
inductive Code where
  /-- Operation word, format H, 10 bits (R61). -/
  | h (w : BitVec 10)
  /-- State code, format T, 3 bits (R60): the selector of the tick dispatch. -/
  | t (w : BitVec 3)
  /-- Micro-operation word, format U, 8 bits (R62). -/
  | u (w : BitVec 8)
deriving DecidableEq, Repr

end Sys2Proof
end

