-- ==== Sys2Proof/Config.lean ====
section
/-! DEFINITION. What is fixed for a whole run: the implementation parameters of R9 and R22, the values the
spec leaves open (constants with no body, so that no proof can see them), and the values of this board. -/

namespace Sys2Proof

/-- The parameters of the step relation (R9, R10, R22), an argument of every operation and written by none, together
with the sources of the values the spec leaves open. A free value is one of the last three functions applied to
`State.instant`. -/
structure Params where
  /-- `OE_ACTIVE_LOW`: level 0 on `O_OE` enables the outputs. -/
  oeActiveLow  : Bool
  /-- `DIAG_READBACK`: `DRIVE` ends with the read-back of its four lines (R91). -/
  diagReadback : Bool
  /-- `T_SETUP` in microseconds; 0 means no wait is emitted (R93). -/
  tSetup       : Nat
  /-- `T_LATCH_HOLD` in microseconds, a lower bound. -/
  tLatchHold   : Nat
  /-- `T_LOAD_LOW` in microseconds, a lower bound. -/
  tLoadLow     : Nat
  /-- `T_CLK_HALF` in microseconds, a lower bound. -/
  tClkHalf     : Nat
  /-- `PINMAP` (R47, D20): the pin of a line is the image of its number (`Params.pinOf`). A permutation of the pin
  numbers gives every injective map of the seven lines, and no other (R22: legal values "injective"). -/
  pins         : Equiv.Perm Nat
  /-- The bit entering `DEV_IN` at a rising clock edge (R136, D15). -/
  fillBit      : Nat → Bool
  /-- Which level a line that moved inside the load pulse is caught at (R134, D14). -/
  captureBits  : Nat → Byte
  /-- What the relays do while the outputs are disabled (R131, D16). -/
  undriven     : Nat → Byte

namespace Config

/-- `PINMAP` of this board: in no source (R9: OPEN; log 16). -/
opaque pins : Equiv.Perm Nat
/-- `DIAG_READBACK` of this board (R9, R22: OPEN; log 15). -/
opaque diagReadback : Bool
/-- Free value: fill bit of `DEV_IN` at each instant (D15; log 10). -/
opaque fillBit : Nat → Bool
/-- Free value: the level caught for a moving input (D14; log 9). -/
opaque captureBits : Nat → Byte
/-- Free value: the relays while undriven (D16; log 17). -/
opaque undriven : Nat → Byte

/-- The six line levels right after reset, `RESET_LEVELS` (D8: unspecified; log 5). -/
opaque resetLevels : Levels
/-- `sh` right after reset (D17: unspecified; log 6). -/
opaque resetSh : Byte
/-- `lat` right after reset (D17: unspecified; log 6). -/
opaque resetLat : Byte
/-- `p` right after reset (D17: unspecified; log 6). -/
opaque resetP : Byte
/-- The eight input lines right after reset (R32: free; log 8). -/
opaque resetInputs : Byte
/-- What the outside world puts on the input lines after reset, before each event (R29: free; log 8). -/
opaque resetUpcoming : List (List Byte)

/-- This board (R9, R22, log 15): `OE_ACTIVE_LOW` true, waits 5, 5 and 2 microseconds, no set-up wait (D11: a positive
`T_SETUP` is for a faster implementation); the parameters that are OPEN on it are constants with no body, so that the
step covers each of their values. -/
def board : Params where
  oeActiveLow  := true
  diagReadback := diagReadback
  tSetup       := 0
  tLatchHold   := 5
  tLoadLow     := 5
  tClkHalf     := 2
  pins         := pins
  fillBit      := fillBit
  captureBits  := captureBits
  undriven     := undriven

end Config

end Sys2Proof
end

