-- ==== Sys2Proof/Syntax.lean ====
section
/-! DEFINITION. The instructions: one constructor per row of spec/opcode_table.json (R69). -/

namespace Sys2Proof

/-- The thirteen operations. An ignored argument is kept, so that no bit of a word is lost. -/
inductive Instr where
  /-- `TICK`, format H, `op = 00`; `arg` is ignored (R61, R107). -/
  | tick (arg : Byte)
  /-- `TICK.RAMP_UP`, state code `000` (R108). -/
  | tickRampUp
  /-- `TICK.RAMP_DOWN`, state code `001` (R109). -/
  | tickRampDown
  /-- `TICK.ALL_ON`, state code `010` (R110). -/
  | tickAllOn
  /-- `TICK.ALL_OFF`, state code `011` (R111). -/
  | tickAllOff
  /-- `TICK.HALT_PENDING`, state code `100` (R112). -/
  | tickHaltPending
  /-- `TICK.HALTED`, state code `101` (R113). -/
  | tickHalted
  /-- `SAMPLE`, format H, `op = 01`; `arg` is ignored (R61, R97). -/
  | sample (arg : Byte)
  /-- `DRIVE m`, format H, `op = 10` (R61, R87). -/
  | drive (m : Byte)
  /-- `REPORT r`, format H, `op = 11` (R61, R122). -/
  | report (r : Byte)
  /-- `SET L,v`, format U, kind `00` (R62, R77). -/
  | set (l : Line) (v : Level)
  /-- `GET L`, format U, kind `01` (R62, R78). -/
  | get (l : Line)
  /-- `WAIT n`, format U, kind `10`, microseconds (R62, R79). -/
  | wait (n : Nat)
deriving DecidableEq, Repr

end Sys2Proof
end

