-- ==== Sys2Proof/WellFormed.lean ====
section
/-! DEFINITION. Which instruction terms are instructions of the core: the operand checks of R70, R77 and R78. -/

namespace Sys2Proof

/-- A line `SET` may name: the six output lines (R77; `SET I_DATA` is illegal, R70). -/
def Line.settable : Line → Bool
  | .iData => false
  | .oData | .oClk | .oLatch | .oOe | .iClk | .iLoad => true

/-- A line `GET` may name: `I_DATA`, or an `O_*` line of the read-back (R78; `I_CLK` and `I_LOAD` are refused, R70). -/
def Line.gettable : Line → Bool
  | .iClk | .iLoad => false
  | .oData | .oClk | .oLatch | .oOe | .iData => true

/-- The operand checks: `WAIT` has six bits for `n` (R62). -/
def Instr.wellFormed : Instr → Bool
  | .set l _ => l.settable
  | .get l => l.gettable
  | .wait n => decide (n < 64)
  | .tick _ | .tickRampUp | .tickRampDown | .tickAllOn | .tickAllOff | .tickHaltPending | .tickHalted => true
  | .sample _ | .drive _ | .report _ => true

end Sys2Proof
end

