-- ==== Sys2Proof/Decode.lean ====
section
/-! DEFINITION. Decoding a code of format H, T or U into an instruction, total, every reserved spelling of R70
refused by name; then the encoder, from the same tables; then the reading of a word numbered as
spec/opcode_table.json numbers it. -/

namespace Sys2Proof

/-- Why a code is no instruction (R70). -/
inductive DecodeError where
  /-- State code `110` or `111`. -/
  | reservedState
  /-- Format U kind `11`. -/
  | reservedKind
  /-- `SET` with line index 4, the input `I_DATA`. -/
  | setOnInput
  /-- `SET` with line index 7, which is no line. -/
  | setNoLine
  /-- `SET` with bits `[1:0]` not `00`. -/
  | setReservedBits
  /-- `GET` with line index 5, 6 or 7. -/
  | getUnusedLine
  /-- `GET` with bits `[2:0]` not `000`. -/
  | getReservedBits
deriving DecidableEq, Repr

/-- The line with a given index (R24, D4); 7 is unused. -/
def Line.ofIndex (n : Nat) : Option Line :=
  match n with
  | 0 => some .oData
  | 1 => some .oClk
  | 2 => some .oLatch
  | 3 => some .oOe
  | 4 => some .iData
  | 5 => some .iClk
  | 6 => some .iLoad
  | _ => none

/-- The index of a line (R24, D4). -/
def Line.index : Line → BitVec 3
  | .oData => 0#3
  | .oClk => 1#3
  | .oLatch => 2#3
  | .oOe => 3#3
  | .iData => 4#3
  | .iClk => 5#3
  | .iLoad => 6#3

/-- The sequencer state of a state code (R60, D2); 6 and 7 are reserved. -/
def SeqState.ofCode (n : Nat) : Option SeqState :=
  match n with
  | 0 => some .rampUp
  | 1 => some .rampDown
  | 2 => some .allOn
  | 3 => some .allOff
  | 4 => some .haltPending
  | 5 => some .halted
  | _ => none

/-- The code of a sequencer state (R60, D2). -/
def SeqState.code : SeqState → BitVec 3
  | .rampUp => 0#3
  | .rampDown => 1#3
  | .allOn => 2#3
  | .allOff => 3#3
  | .haltPending => 4#3
  | .halted => 5#3

/-- The arm of `TICK` that a sequencer state selects (R107). -/
def SeqState.arm : SeqState → Instr
  | .rampUp => .tickRampUp
  | .rampDown => .tickRampDown
  | .allOn => .tickAllOn
  | .allOff => .tickAllOff
  | .haltPending => .tickHaltPending
  | .halted => .tickHalted

/-- Format H: `op` in bits `[9:8]`, `arg` in bits `[7:0]` (R61). All four `op` values are used. -/
def decodeH (w : BitVec 10) : Instr :=
  let arg := w.extractLsb' 0 8
  match (w.extractLsb' 8 2).toNat with
  | 0 => .tick arg
  | 1 => .sample arg
  | 2 => .drive arg
  | _ => .report arg

/-- Format T: the six state codes (R60). -/
def decodeT (w : BitVec 3) : Except DecodeError Instr :=
  match SeqState.ofCode w.toNat with
  | some s => .ok s.arm
  | none => .error .reservedState

/-- Format U, kind `00`: `SET L,v` with `L` in `[5:3]`, `v` in `[2]`, zeros in `[1:0]` (R62, R70). -/
def decodeSet (w : BitVec 8) : Except DecodeError Instr :=
  if w.extractLsb' 0 2 ≠ 0#2 then .error .setReservedBits
  else
    match Line.ofIndex (w.extractLsb' 3 3).toNat with
    | none => .error .setNoLine
    | some l => if l.settable then .ok (.set l (w.getLsbD 2)) else .error .setOnInput

/-- Format U, kind `01`: `GET L` with `L` in `[5:3]`, zeros in `[2:0]` (R62, R70). -/
def decodeGet (w : BitVec 8) : Except DecodeError Instr :=
  if w.extractLsb' 0 3 ≠ 0#3 then .error .getReservedBits
  else
    match Line.ofIndex (w.extractLsb' 3 3).toNat with
    | none => .error .getUnusedLine
    | some l => if l.gettable then .ok (.get l) else .error .getUnusedLine

/-- Format U: the kind is in bits `[7:6]` (R62). -/
def decodeU (w : BitVec 8) : Except DecodeError Instr :=
  match (w.extractLsb' 6 2).toNat with
  | 0 => decodeSet w
  | 1 => decodeGet w
  | 2 => .ok (.wait (w.extractLsb' 0 6).toNat)
  | _ => .error .reservedKind

/-- The decoder, total on every code of every format. -/
def decode : Code → Except DecodeError Instr
  | .h w => .ok (decodeH w)
  | .t w => decodeT w
  | .u w => decodeU w

/-- A level as one bit (R11). -/
def Level.bit (v : Level) : BitVec 1 := BitVec.ofBool v

/-- The code of an instruction, from the tables of R60, R61 and R62. -/
def encode : Instr → Code
  | .tick arg => .h (0b00#2 ++ arg)
  | .sample arg => .h (0b01#2 ++ arg)
  | .drive m => .h (0b10#2 ++ m)
  | .report r => .h (0b11#2 ++ r)
  | .tickRampUp => .t SeqState.rampUp.code
  | .tickRampDown => .t SeqState.rampDown.code
  | .tickAllOn => .t SeqState.allOn.code
  | .tickAllOff => .t SeqState.allOff.code
  | .tickHaltPending => .t SeqState.haltPending.code
  | .tickHalted => .t SeqState.halted.code
  | .set l v => .u (0b00#2 ++ l.index ++ Level.bit v ++ 0b00#2)
  | .get l => .u (0b01#2 ++ l.index ++ 0b000#3)
  | .wait n => .u (0b10#2 ++ BitVec.ofNat 6 n)

/-- The code that a word of the opcode table stands for. The table numbers three formats of three widths (H 10,
T 3, U 8 bits) and gives a row's width in whole bytes, so an H word comes with 16 bits (or 10) and a T or a U word
with 8; T alone may also come with 3. DESIGN CHOICE (log 3): eight bits below 8 are read as the 3-bit T row, all
others as format U, since a bare byte does not say which of the two formats it is in. The bits above a row's width
are 0, or there is no code. -/
def tableCode (nbits w : Nat) : Option Code :=
  match nbits with
  | 16 => if w < 1024 then some (.h (BitVec.ofNat 10 w)) else none
  | 10 => if w < 1024 then some (.h (BitVec.ofNat 10 w)) else none
  | 8 => if w < 8 then some (.t (BitVec.ofNat 3 w)) else if w < 256 then some (.u (BitVec.ofNat 8 w)) else none
  | 3 => if w < 8 then some (.t (BitVec.ofNat 3 w)) else none
  | _ => none

/-- The instruction the decoder reads from a word numbered as spec/opcode_table.json numbers it. -/
def decodeTableWord (nbits w : Nat) : Option Instr :=
  match tableCode nbits w with
  | none => none
  | some c =>
    match decode c with
    | .ok i => some i
    | .error _ => none

end Sys2Proof
end

