-- ==== Sys2Proof/Machine/State.lean ====
section
/-! DEFINITION. The state of the core, of the two devices and of the world around them (R13), as plain data;
the reasons a step can stop; the state after reset (R32). -/

namespace Sys2Proof.Machine

/-- The model has no fault: "The core raises no exception of any kind and has no cause codes" (R141), and a model
"does not add a fault" for the one failure the document names (R142). So nothing raises one (safe). -/
inductive Fault where
deriving DecidableEq, Repr

/-- Why the model gives no meaning. All but the first are situations the spec itself says to refuse. -/
inductive Refusal where
  /-- Raised by an arm of `exec` for an instruction with no meaning yet (safe); no arm is left so. -/
  | notModelled (mnemonic : String)
  /-- Raised by `step` when the next placed word is a spelling the decoder refuses (R70: `refuse`; safe). -/
  | illegalWord (e : DecodeError)
  /-- Raised by `SET I_DATA` ("does not exist", R77) and by `GET I_CLK`, `GET I_LOAD` (R70: `refuse`; safe). -/
  | illegalLine (l : Line)
  /-- Raised by `SET I_CLK,1` when it makes a rising edge while `I_LOAD` is low: "no rule gives it a meaning"
  (R134, U18: `refuse`; safe). It cannot occur under `SAMPLE`. -/
  | clockDuringLoad
  /-- Raised by every operation invoked while another runs (R144, R146: `refuse`; safe). -/
  | operationRunning
  /-- Raised by a `TICK` arm that the state register does not select: "the arm is selected by the value of
  `state`" (R107), so this is no operation of the core (safe). -/
  | armNotSelected
  /-- Raised by the host's read of `committed` before the first `DRIVE` (R16, D9: `refuse`; safe). -/
  | committedNone
  /-- Raised by the host's read of `linelevels` on a board without `DIAG_READBACK` (R148: "with `DIAG_READBACK`,
  `linelevels`"; safe). -/
  | noReadback
  /-- Raised by a micro-step whose index lies outside its micro-sequence; the index "never branches, never skips
  and never wraps" (R20), so no run reaches this (safe). -/
  | upcOutOfRange
deriving DecidableEq, Repr

/-- One event of the trace (R11). -/
inductive Event where
  /-- `W(L,v)`. -/
  | write (l : Line) (v : Level)
  /-- `R(L)=b`. -/
  | read (l : Line) (b : Level)
  /-- `D(n)`. -/
  | delay (n : Nat)
deriving DecidableEq, Repr

/-- The micro-step index (R20) with the operation it counts in. -/
inductive Upc where
  /-- No operation runs. -/
  | idle
  /-- `DRIVE(m)` runs and its micro-operation `k` comes next; `byTick` if a `TICK` called it. -/
  | driving (m : Byte) (k : Nat) (byTick : Bool)
  /-- `SAMPLE()` runs and its micro-operation `k` comes next; `forStatus` if a `STATUS` called it. -/
  | sampling (k : Nat) (forStatus : Bool)
deriving DecidableEq, Repr

/-- A per-line record of `REPORT` (R123). -/
structure LineRecord where
  /-- The line number, 1 to 8. -/
  line    : Nat
  raw     : Level
  logical : Level
deriving DecidableEq, Repr

/-- What an operation, or a read, returns to its caller. -/
inductive Result where
  /-- The raw snapshot of `SAMPLE` (R97). -/
  | snapshot (r : Byte)
  /-- The pattern and the records of `REPORT` (R122). -/
  | report (pattern : List Char) (records : List LineRecord)
  /-- `linelevels`: the read-back of `DRIVE` (R91), or as read by the host (R148). -/
  | lineLevels (data clk latch oe : Level)
  /-- The sequencer state as read by the host for the step name (R148). -/
  | stepName (s : SeqState)
  /-- `halted` as read by the host (R23, R151). -/
  | halted (b : Bool)
  /-- The committed mask as read by the host (R149). -/
  | committed (m : Byte)
deriving DecidableEq, Repr

/-- What the host may do, and all it may do (R148, R149, R151): `DRIVE`, the halves of `STATUS` and the line writes
are no moves of the host, so the ownership rule R30 cannot be broken from there. -/
inductive Call where
  | tick
  /-- The pseudo-operation `STATUS` (R124). -/
  | status
  /-- Read `state`. -/
  | readState
  /-- Read `halted`. -/
  | readHalted
  /-- Read `committed`. -/
  | readCommitted
  /-- Read `linelevels`. -/
  | readLineLevels
deriving DecidableEq, Repr

/-- What comes from outside the core while it is idle. -/
inductive Move where
  | host (call : Call)
  /-- The process starts again (R161, R164): the environment's doing, no operation of the host. -/
  | processStart
deriving DecidableEq, Repr

/-- The load pulse that is open: bit i of `low` (of `high`), input line i+1 was low (high) at some instant since the
write of 0 to `I_LOAD` that opened it (implied by R134). -/
structure Pulse where
  low  : Byte
  high : Byte
deriving DecidableEq, Repr

/-- The two views of D1: an operation is one step, or each of its events is one step. -/
inductive Grain where
  | operation
  | event
deriving DecidableEq, Repr

/-- The whole state (R13). The last six fields are the model's own (log 18). -/
structure State where
  /-- RelayMask (R14). -/
  mask      : Byte
  /-- Ramp cursor (R15). -/
  cursor    : BitVec 3
  /-- Sequencer step index (R19). -/
  state     : SeqState
  /-- The last driven mask, or none (R16). -/
  committed : Option Byte
  /-- Accumulator of `SAMPLE` (R17): dead outside one (log 36). -/
  acc       : Byte
  /-- Micro-step index (R20); `bitidx` (R18) is a function of it. -/
  upc       : Upc
  /-- The level registers of the six output lines (R25). -/
  lvl       : Levels
  /-- `DEV_OUT` shift stage (R27). -/
  sh        : Byte
  /-- `DEV_OUT` output latches (R27). -/
  lat       : Byte
  /-- `DEV_IN` storage (R28). -/
  p         : Byte
  /-- The load pulse a write of 0 to `I_LOAD` has opened and no write of 1 has closed (implied by R134; log 32). -/
  pulse     : Option Pulse
  /-- `IN[1..8]` now, bit i being line i+1 (R29). -/
  inputs    : Byte
  /-- What the outside world puts on the input lines next (R29): for each event to come, the levels they pass
  through since the event before it, in order; none where they hold. When the list has run out they hold. -/
  upcoming  : List (List Byte)
  /-- What the host calls next, oldest first, and the process starts among it (R148, R161). -/
  moves     : List Move
  /-- Codes placed from outside to be run before the host's next move, oldest first: how a single operation, or a
  micro-operation program, is put on the bench. No step puts one there (log 2). -/
  placed    : List Code
  /-- The events so far, in the order they happened (R11). -/
  trace     : List Event
  /-- What operations have returned so far, in order. -/
  results   : List Result
  /-- How many events have happened: the argument of the free values. -/
  instant   : Nat
  /-- Which of the two views of D1 `step` takes. -/
  grain     : Grain
deriving DecidableEq, Repr

/-- The state right after reset (R32, R161, R162). Line levels, devices and inputs are the unspecified constants
of Config (log 5, 6, 8). -/
def State.reset : State where
  mask      := 0x00#8
  cursor    := 0#3
  state     := .rampUp
  committed := none
  acc       := 0x00#8
  upc       := .idle
  lvl       := Config.resetLevels
  sh        := Config.resetSh
  lat       := Config.resetLat
  p         := Config.resetP
  pulse     := none
  inputs    := Config.resetInputs
  upcoming  := Config.resetUpcoming
  moves     := []
  placed    := []
  trace     := []
  results   := []
  instant   := 0
  grain     := .operation

end Sys2Proof.Machine
end

