-- ==== Sys2Proof/Machine/Operands.lean ====
section
/-! DEFINITION. Every operand form of 30_encoding.md section 2: the data bit of a slot, the assembly of the input
byte, the ramp bit, the display inversion, the output-enable level, the pin of a line; and the reading of a line by name. -/

namespace Sys2Proof

/-- `OE_ON`: 0 if `OE_ACTIVE_LOW`, else 1 (R68). -/
def Params.oeOn (c : Params) : Level := !c.oeActiveLow

/-- The physical pin of a line (R47). -/
def Params.pinOf (c : Params) (l : Line) : Nat := c.pins l.index.toNat

end Sys2Proof

namespace Sys2Proof.Machine

/-- The order of the eight slots of a frame: bit index 7 down to 0 (R36). -/
def slotOrder : List Nat := [7, 6, 5, 4, 3, 2, 1, 0]

/-- The order of the display: bit 0 first (R38). -/
def displayOrder : List Nat := [0, 1, 2, 3, 4, 5, 6, 7]

/-- The byte with only bit `i` set, `1 << i` at width 8. -/
def oneBit (i : Nat) : Byte := 1#8 <<< i

/-- Data bit of an output slot: `(mask >> i) & 1` (R64). -/
def dataBit (m : Byte) (i : Nat) : Level := (m >>> i) &&& 1#8 == 1#8

/-- `acc <- (acc & ~(1 << i)) | (b << i)` (R65). -/
def withBit (acc : Byte) (i : Nat) (b : Level) : Byte :=
  (acc &&& ~~~(oneBit i)) ||| (if b then oneBit i else 0#8)

/-- `mask | (1 << cursor)` (R66). -/
def rampSet (mask : Byte) (cursor : BitVec 3) : Byte := mask ||| oneBit cursor.toNat

/-- `mask & ~(1 << cursor)` (R66). -/
def rampClear (mask : Byte) (cursor : BitVec 3) : Byte := mask &&& ~~~(oneBit cursor.toNat)

/-- `logical = ~raw` (R67). -/
def logicalOf (raw : Byte) : Byte := ~~~raw

/-- The character of a logical bit: `char(1) = '1'`, `char(0) = '0'` (R122). -/
def bitChar (b : Level) : Char := if b then '1' else '0'

/-- The display string of a raw snapshot, bit 0 first (R59, R122). -/
def displayPattern (raw : Byte) : List Char := displayOrder.map fun i => bitChar (dataBit (logicalOf raw) i)

/-- The per-line records of a raw snapshot, in line order (R122, R123). -/
def lineRecords (raw : Byte) : List LineRecord :=
  displayOrder.map fun i =>
    { line := i + 1, raw := dataBit raw i, logical := dataBit (logicalOf raw) i }

/-- The level of a line: `lvl[L]` for an output line, `p[7]` for `I_DATA` (R78, R135). -/
def State.level (s : State) : Line → Level
  | .oData => s.lvl.oData
  | .oClk => s.lvl.oClk
  | .oLatch => s.lvl.oLatch
  | .oOe => s.lvl.oOe
  | .iData => s.p.getLsbD 7
  | .iClk => s.lvl.iClk
  | .iLoad => s.lvl.iLoad

/-- `lvl[L] <- v` (R25). `I_DATA` has no level register (R26). -/
def setLevel (lv : Levels) (l : Line) (v : Level) : Levels :=
  match l with
  | .oData => { lv with oData := v }
  | .oClk => { lv with oClk := v }
  | .oLatch => { lv with oLatch := v }
  | .oOe => { lv with oOe := v }
  | .iData => lv
  | .iClk => { lv with iClk := v }
  | .iLoad => { lv with iLoad := v }

end Sys2Proof.Machine
end

