-- ==== Sys2Proof/Machine/Flags.lean ====
section
/-! DEFINITION. The core has no flags (R23). Its read-only views, all functions of the state: `halted`,
`step_name`, `linelevels` (R23), `bitidx` (R18), the relays (R131) and the physical pins (R47). -/

namespace Sys2Proof

/-- The printed name of a sequencer state (R23). -/
def SeqState.name : SeqState → String
  | .rampUp => "RAMP_UP"
  | .rampDown => "RAMP_DOWN"
  | .allOn => "ALL_ON"
  | .allOff => "ALL_OFF"
  | .haltPending => "HALT_PENDING"
  | .halted => "HALTED"

end Sys2Proof

namespace Sys2Proof.Machine

/-- `halted = (state == HALTED)` (R23). -/
def State.halted (s : State) : Bool := s.state == .halted

/-- `step_name`, the name of `state` (R23). -/
def State.stepName (s : State) : String := s.state.name

/-- `linelevels`, in the order of the read-back (R23, R91). -/
def lineLevels (s : State) : Result :=
  .lineLevels (s.level .oData) (s.level .oClk) (s.level .oLatch) (s.level .oOe)

/-- The relays, bit i being relay i+1 energized: `lat` while the outputs are enabled, a free value while they are
not (R131, D16). -/
def relays (c : Params) (s : State) : Byte :=
  if s.lvl.oOe = c.oeOn then s.lat else c.undriven s.instant

/-- The level at a physical pin, if a line is mapped to it (R47). -/
def pinLevel (c : Params) (s : State) (pin : Nat) : Option Level :=
  ([.oData, .oClk, .oLatch, .oOe, .iData, .iClk, .iLoad].find? fun l => c.pinOf l == pin).map s.level

end Sys2Proof.Machine
end

