-- ==== Sys2Proof/Machine/Ops.lean ====
section
/-! DEFINITION. The shared operations: an event, the write of a line with the edges the devices see, one
micro-operation, a straight-line list of them, and the guard that an operation begins only when none runs.
There is no exception to take or to return from (R141, R153, R154), so no operation for it. -/

namespace Sys2Proof.Machine

/-- What an operation answers. -/
abbrev Answer := Host.Outcome State Fault Refusal

/-- Goes on with `f` where `o` is a next state. -/
def andThen (o : Answer) (f : State → Answer) : Answer :=
  match o with
  | .next t => f t
  | .fault e => .fault e
  | .refused r => .refused r

/-- The levels the input lines pass through before the next event, in order (R29). -/
def passed (s : State) : List Byte := s.upcoming.headD []

/-- The bits that are set in `b` or in a byte of `l`. -/
def orAll (l : List Byte) (b : Byte) : Byte := l.foldl (fun x y => x ||| y) b

/-- The levels of `l` added to those a load pulse has seen. -/
def Pulse.see (q : Pulse) (l : List Byte) : Pulse :=
  { low := orAll (l.map fun x => ~~~x) q.low, high := orAll l q.high }

/-- The load pulse that opens with the input lines at `b`. -/
def Pulse.starting (b : Byte) : Pulse := { low := ~~~b, high := b }

/-- The time up to an event: the outside world may have moved the input lines, any number of times (R29), and every
level they took belongs to the load pulse, if one is open (R134). -/
def atInstant (s : State) : State :=
  { s with
    inputs   := (passed s).getLastD s.inputs
    upcoming := s.upcoming.tail
    pulse    := s.pulse.map fun q => q.see (passed s) }

/-- The event itself: it enters the trace, and the next free values are those of the next instant. -/
def emit (e : Event) (s : State) : State :=
  { s with trace := s.trace ++ [e], instant := s.instant + 1 }

/-- A write of `v` to `l` makes a rising edge on the line `on` (R77, R80). -/
def rising (s : State) (l : Line) (v : Level) (on : Line) : Bool :=
  l == on && v && !s.level on

/-- `DEV_OUT` shifts: `sh <- ((sh << 1) | lvl[O_DATA]) & 0xFF` (R129). -/
def shiftOut (sh : Byte) (b : Level) : Byte := (sh <<< 1) ||| (if b then 1#8 else 0#8)

/-- `DEV_IN` shifts: `p <- ((p << 1) | f) & 0xFF`, the fill bit `f` a free value (R136, D15). -/
def shiftIn (p : Byte) (f : Bool) : Byte := (p <<< 1) ||| (if f then 1#8 else 0#8)

/-- `DEV_IN` loads: each bit is a level its line took in the pulse; where it took both, the choice is free (R134,
D14). A rising edge that ends no pulse opened by a write (the line low from power-up) loads any byte (log 32). -/
def captured (c : Params) (s : State) : Byte :=
  match s.pulse with
  | some q => q.high &&& (~~~q.low ||| c.captureBits s.instant)
  | none => c.captureBits s.instant

/-- What a write of `v` to `l` does to the load pulse: a write of 0 to `I_LOAD` opens one, unless one is open, when it
makes no edge and the device sees nothing (R77); a write of 1 ends it (R134). -/
def nextPulse (l : Line) (v : Level) (s : State) : Option Pulse :=
  if l == .iLoad then
    if v then none else some (s.pulse.getD (.starting s.inputs))
  else s.pulse

/-- `LineWrite(L, v)` with the reactions of the two devices to the edge it makes, if any (R77, R129, R130, R134,
R136). DESIGN CHOICE (log 37): while `I_LOAD` is low `p` keeps what it held and `DEV_IN` goes on presenting its bit 7;
whether the device is transparent then is in no source (N8). -/
def lineWrite (c : Params) (l : Line) (v : Level) (s : State) : State :=
  { s with
    lvl   := setLevel s.lvl l v
    sh    := if rising s l v .oClk then shiftOut s.sh s.lvl.oData else s.sh
    lat   := if rising s l v .oLatch then s.sh else s.lat
    p     := if rising s l v .iLoad then captured c s
             else if rising s l v .iClk then shiftIn s.p (c.fillBit s.instant)
             else s.p
    pulse := nextPulse l v s }

/-- Why a micro-operation has no meaning, if it has none (R70, R134). DESIGN CHOICE (log 11): of the clock edges in
the low phase of the load pulse only the rising one is refused; a falling one runs and moves nothing (R136). -/
def objection (op : MicroOp) (s : State) : Option Refusal :=
  match op with
  | .set l v =>
    if l.settable then
      if rising s l v .iClk && !s.lvl.iLoad then some .clockDuringLoad else none
    else some (.illegalLine l)
  | .get l => if l.gettable then none else some (.illegalLine l)
  | .wait _ => none

/-- The effect of a micro-operation: `SET` (R77), `GET`, whose level is in the event (R78), `WAIT` (R79). -/
def act (c : Params) (op : MicroOp) (s : State) : State :=
  match op with
  | .set l v => emit (.write l v) (lineWrite c l v (atInstant s))
  | .get l => emit (.read l (s.level l)) (atInstant s)
  | .wait n => emit (.delay n) (atInstant s)

/-- One micro-operation (R76). -/
def microOp (c : Params) (op : MicroOp) (s : State) : Answer :=
  match objection op s with
  | some r => .refused r
  | none => .next (act c op s)

/-- What a micro-step does in the core beside its micro-operation (the middle column of the tables of R89 and
R99). -/
inductive Note where
  | nothing
  /-- `committed <- m` (R88). -/
  | commit (m : Byte)
  /-- `acc <- 0` (R97). -/
  | clearAcc
  /-- `acc[i] <- b`, `b` the level of `I_DATA` (R65, R97). -/
  | accBit (i : Nat)
deriving DecidableEq, Repr

/-- One row of a micro-step table. -/
structure MicroStep where
  op   : MicroOp
  note : Note
deriving DecidableEq, Repr

/-- A row with no note. -/
def plain (op : MicroOp) : MicroStep := { op := op, note := .nothing }

/-- The effect of a row's note. -/
def applyNote (n : Note) (s : State) : State :=
  match n with
  | .nothing => s
  | .commit m => { s with committed := some m }
  | .clearAcc => { s with acc := 0x00#8 }
  | .accBit i => { s with acc := withBit s.acc i (s.level .iData) }

/-- One row: the micro-operation, then its note. A read leaves `p` alone, so the note sees the level read. -/
def runRow (c : Params) (r : MicroStep) (s : State) : State := applyNote r.note (act c r.op s)

/-- A straight-line list of rows, first to last, none skipped (R20, R49). It cannot fail: no row of `DRIVE` or
`SAMPLE` meets an objection (R76: "each micro-operation is unconditional and always succeeds"). -/
def runRows (c : Params) (rows : List MicroStep) (s : State) : State :=
  match rows with
  | [] => s
  | r :: rest => runRows c rest (runRow c r s)

/-- "An operation cannot begin while `upc` is not idle" (R146). -/
def whenIdle (s : State) (a : Answer) : Answer :=
  match s.upc with
  | .idle => a
  | .driving _ _ _ => .refused .operationRunning
  | .sampling _ _ => .refused .operationRunning

/-- A value handed to the host. -/
def giveBack (r : Result) (s : State) : State := { s with results := s.results ++ [r] }

/-- The process starts again (R161, R164): the registers of the core take the values of R32; the lines and the
devices stay as they are, and no event is emitted. -/
def restart (s : State) : State :=
  { s with
    mask := 0x00#8, cursor := 0#3, state := .rampUp, committed := none, acc := 0x00#8, upc := .idle }

end Sys2Proof.Machine
end

