-- ==== Sys2Proof/Machine/Gpio.lean ====
section
/-! DEFINITION. The GPIO micro-operations as instructions: `SET`, `GET`, `WAIT` (40_gpio_primitives.md). -/

namespace Sys2Proof.Machine

/-- `SET L, v` (R77). -/
def execSet (l : Line) (v : Level) (s : State) : Answer := microOp Config.board (.set l v) s

/-- `GET L` (R78). -/
def execGet (l : Line) (s : State) : Answer := microOp Config.board (.get l) s

/-- `WAIT n` (R79). -/
def execWait (n : Nat) (s : State) : Answer := microOp Config.board (.wait n) s

end Sys2Proof.Machine
end

