-- ==== Sys2Proof/Machine/SerialOut.lean ====
section
/-! DEFINITION. SerialOutRegister: the micro-steps of `DRIVE` (R87, R89) and the operation. -/

namespace Sys2Proof.Machine

/-- `OUT_SLOT` for bit `i` of `m` (R74, R87 step 3), with the set-up wait where `T_SETUP` asks for one (R93). -/
def outSlot (c : Params) (m : Byte) (i : Nat) : List MicroStep :=
  [plain (.set .oClk false), plain (.set .oData (dataBit m i))]
    ++ (if c.tSetup = 0 then [] else [plain (.wait c.tSetup)])
    ++ [plain (.set .oClk true)]

/-- The read-back of `DRIVE`, where `DIAG_READBACK` asks for it (R91). -/
def readBack (c : Params) : List MicroStep :=
  if c.diagReadback then [plain (.get .oData), plain (.get .oClk), plain (.get .oLatch), plain (.get .oOe)] else []

/-- The micro-steps of `DRIVE(m)`, in order (R87, R89); `committed` is written with the latch (R88). -/
def driveRows (c : Params) (m : Byte) : List MicroStep :=
  [plain (.set .oOe c.oeOn), plain (.set .oLatch false)]
    ++ slotOrder.flatMap (outSlot c m)
    ++ [{ op := .set .oLatch true, note := .commit m }, plain (.wait c.tLatchHold)]
    ++ readBack c

/-- How many micro-steps a slot of `DRIVE` has (R89). -/
def slotLength (c : Params) : Nat := if c.tSetup = 0 then 3 else 4

/-- The index of the micro-step that raises the latch (R89). -/
def latchStep (c : Params) : Nat := 2 + 8 * slotLength c

/-- How many micro-steps a `DRIVE` has (R20, R89). -/
def driveLength (c : Params) : Nat := latchStep c + 2 + if c.diagReadback then 4 else 0

/-- `DRIVE(m)` from first event to last: it cannot fail (R87). -/
def frame (c : Params) (m : Byte) (s : State) : State := runRows c (driveRows c m) s

/-- `DRIVE` returns: nothing, or `linelevels` with `DIAG_READBACK` (R91). -/
def finishDrive (c : Params) (s : State) : State :=
  { s with results := if c.diagReadback then s.results ++ [lineLevels s] else s.results }

/-- `DRIVE m` (R87). -/
def drive (c : Params) (m : Byte) (s : State) : Answer := whenIdle s (.next (finishDrive c (frame c m s)))

/-- `DRIVE m` on this board. -/
def execDrive (m : Byte) (s : State) : Answer := drive Config.board m s

end Sys2Proof.Machine
end

