-- ==== Sys2Proof/Machine/Sequencer.lean ====
section
/-! DEFINITION. RelaySequencer: the six arms of `TICK` and the dispatch (R106 to R113). Every arm but HALTED first
computes the whole mask, then drives it once, then updates `cursor` and `state` (R107). -/

namespace Sys2Proof.Machine

/-- RAMP_UP, the mask driven (R108). -/
def rampUpMask (s : State) : Byte := rampSet s.mask s.cursor

/-- RAMP_UP, after the frame: the transient `cursor + 1` is tested before it is stored (R108). -/
def rampUpTail (s : State) : State :=
  { s with
    state  := if s.cursor.toNat + 1 = 8 then .rampDown else s.state
    cursor := if s.cursor.toNat + 1 = 8 then 7#3 else s.cursor + 1#3 }

/-- RAMP_DOWN, the mask driven (R109). -/
def rampDownMask (s : State) : Byte := rampClear s.mask s.cursor

/-- RAMP_DOWN, after the frame: the exit is taken on `cursor = 0`, and −1 is not stored (R109, D7). -/
def rampDownTail (s : State) : State :=
  { s with
    state  := if s.cursor = 0#3 then .allOn else s.state
    cursor := if s.cursor = 0#3 then 0#3 else s.cursor - 1#3 }

/-- Step (a) of a tick: the mask the selected arm drives; HALTED drives none and leaves it (R108 to R113). -/
def tickMask (s : State) : Byte :=
  match s.state with
  | .rampUp => rampUpMask s
  | .rampDown => rampDownMask s
  | .allOn => 0xFF#8
  | .allOff => 0x00#8
  | .haltPending => 0x00#8
  | .halted => s.mask

/-- Step (c) of a tick, when its frame has been sent (R108 to R113); `state` is written last (R19). -/
def tickTail (s : State) : State :=
  match s.state with
  | .rampUp => rampUpTail s
  | .rampDown => rampDownTail s
  | .allOn => { s with state := .allOff }
  | .allOff => { s with state := .haltPending }
  | .haltPending => { s with state := .halted }
  | .halted => s

/-- Steps (a), (b) and (c) of an arm that drives (R107): the mask, one `DRIVE` of it, the update. What `DRIVE`
returns stops at the tick, which returns nothing (R61, R107). -/
def driveThen (c : Params) (m : Byte) (tail : State → State) (s : State) : State :=
  tail (frame c m { s with mask := m })

/-- An arm is the one the state register selects (R107). -/
def whenSelected (st : SeqState) (s : State) (a : Answer) : Answer :=
  whenIdle s (if s.state = st then a else .refused .armNotSelected)

/-- `TICK.RAMP_UP` (R108). -/
def tickRampUp (c : Params) (s : State) : Answer :=
  whenSelected .rampUp s (.next (driveThen c (rampUpMask s) rampUpTail s))

/-- `TICK.RAMP_DOWN` (R109). -/
def tickRampDown (c : Params) (s : State) : Answer :=
  whenSelected .rampDown s (.next (driveThen c (rampDownMask s) rampDownTail s))

/-- `TICK.ALL_ON` (R110). -/
def tickAllOn (c : Params) (s : State) : Answer :=
  whenSelected .allOn s (.next (driveThen c 0xFF#8 (fun t => { t with state := .allOff }) s))

/-- `TICK.ALL_OFF` (R111). -/
def tickAllOff (c : Params) (s : State) : Answer :=
  whenSelected .allOff s (.next (driveThen c 0x00#8 (fun t => { t with state := .haltPending }) s))

/-- `TICK.HALT_PENDING` (R112): it does send its frame (C1, D23). -/
def tickHaltPending (c : Params) (s : State) : Answer :=
  whenSelected .haltPending s (.next (driveThen c 0x00#8 (fun t => { t with state := .halted }) s))

/-- `TICK.HALTED` (R113): no register is written, `DRIVE` is not called, no event is emitted. -/
def tickHalted (s : State) : Answer := whenSelected .halted s (.next s)

/-- `TICK` (R107): the arm is selected by the value of `state`. -/
def tick (c : Params) (s : State) : Answer :=
  match s.state with
  | .rampUp => tickRampUp c s
  | .rampDown => tickRampDown c s
  | .allOn => tickAllOn c s
  | .allOff => tickAllOff c s
  | .haltPending => tickHaltPending c s
  | .halted => tickHalted s

/-- `TICK.RAMP_UP` on this board. -/
def execTickRampUp (s : State) : Answer := tickRampUp Config.board s

/-- `TICK.RAMP_DOWN` on this board. -/
def execTickRampDown (s : State) : Answer := tickRampDown Config.board s

/-- `TICK.ALL_ON` on this board. -/
def execTickAllOn (s : State) : Answer := tickAllOn Config.board s

/-- `TICK.ALL_OFF` on this board. -/
def execTickAllOff (s : State) : Answer := tickAllOff Config.board s

/-- `TICK.HALT_PENDING` on this board. -/
def execTickHaltPending (s : State) : Answer := tickHaltPending Config.board s

/-- `TICK.HALTED` on this board: no parameter enters it. -/
def execTickHalted (s : State) : Answer := tickHalted s

/-- `TICK` on this board. -/
def execTick (s : State) : Answer := tick Config.board s

end Sys2Proof.Machine
end

