-- ==== Sys2Proof/Machine/Reporter.lean ====
section
/-! DEFINITION. StatusReporter: `REPORT`, a pure function of its operand (R121, R122). -/

namespace Sys2Proof.Machine

/-- The pattern and the records of a raw snapshot (R122). -/
def reportOf (r : Byte) : Result := .report (displayPattern r) (lineRecords r)

/-- `REPORT r` (R122): nothing but the value returned. No parameter enters it. -/
def execReport (r : Byte) (s : State) : Answer := whenIdle s (.next (giveBack (reportOf r) s))

end Sys2Proof.Machine
end

