-- ==== Sys2Proof/Machine/SerialIn.lean ====
section
/-! DEFINITION. SerialInRegister: the micro-steps of `SAMPLE` (R97, R99), the operation, and `STATUS` (R124). -/

namespace Sys2Proof.Machine

/-- `LOAD_PULSE` (R74, R97 step 1); `acc <- 0` stands with its last write (R99). -/
def loadPulse (c : Params) : List MicroStep :=
  [plain (.set .iLoad false), plain (.wait c.tLoadLow), { op := .set .iLoad true, note := .clearAcc }]

/-- `IN_SLOT` for bit `i` of the result (R74, R97 step 2). -/
def inSlot (c : Params) (i : Nat) : List MicroStep :=
  [plain (.set .iClk false), plain (.wait c.tClkHalf), { op := .get .iData, note := .accBit i },
    plain (.set .iClk true), plain (.wait c.tClkHalf)]

/-- The micro-steps of `SAMPLE()`, in order (R97, R99). -/
def sampleRows (c : Params) : List MicroStep := loadPulse c ++ slotOrder.flatMap (inSlot c)

/-- `SAMPLE` returns `acc`, to the host or to the `REPORT` of `STATUS` (R97, R124). DESIGN CHOICE (log 36): the spec
calls `acc` dead from then on (R17, R32), and the model leaves the snapshot in it; nothing reads it before the next
`SAMPLE` clears it. -/
def finishSample (forStatus : Bool) (s : State) : State :=
  giveBack (if forStatus then reportOf s.acc else .snapshot s.acc) s

/-- `SAMPLE()` from first event to last, and what returns with it: it cannot fail (R97). -/
def snapshot (c : Params) (forStatus : Bool) (s : State) : State :=
  finishSample forStatus (runRows c (sampleRows c) s)

/-- `SAMPLE` (R97). -/
def sample (c : Params) (s : State) : Answer := whenIdle s (.next (snapshot c false s))

/-- The pseudo-operation `STATUS()`: `r <- SAMPLE(); REPORT(r)` (R124). -/
def status (c : Params) (s : State) : Answer := whenIdle s (.next (snapshot c true s))

/-- `SAMPLE` on this board. -/
def execSample (s : State) : Answer := sample Config.board s

end Sys2Proof.Machine
end

