-- ==== Sys2Proof/Machine/Dispatch.lean ====
section
/-! DEFINITION. One arm per instruction, each a direct call of its meaning. -/

namespace Sys2Proof.Machine

def exec (i : Instr) (s : State) : Host.Outcome State Fault Refusal :=
  match i with
  | .tick _ => Sys2Proof.Machine.execTick s
  | .tickRampUp => Sys2Proof.Machine.execTickRampUp s
  | .tickRampDown => Sys2Proof.Machine.execTickRampDown s
  | .tickAllOn => Sys2Proof.Machine.execTickAllOn s
  | .tickAllOff => Sys2Proof.Machine.execTickAllOff s
  | .tickHaltPending => Sys2Proof.Machine.execTickHaltPending s
  | .tickHalted => Sys2Proof.Machine.execTickHalted s
  | .sample _ => Sys2Proof.Machine.execSample s
  | .drive m => Sys2Proof.Machine.execDrive m s
  | .report r => Sys2Proof.Machine.execReport r s
  | .set l v => Sys2Proof.Machine.execSet l v s
  | .get l => Sys2Proof.Machine.execGet l s
  | .wait n => Sys2Proof.Machine.execWait n s

end Sys2Proof.Machine
end

