-- ==== Sys2Proof/Machine/SmallStep.lean ====
section
/-! DEFINITION. The operations under any parameters (R10), and the event-by-event view of D1: `upc` counts through the
micro-step table of the running `DRIVE` or `SAMPLE` (R20, R89, R99), one event a step. -/

namespace Sys2Proof.Machine

/-- An instruction under any parameters (R10, R22): `exec` is this at `Config.board`. -/
def operate (c : Params) (i : Instr) (s : State) : Answer :=
  match i with
  | .tick _ => tick c s
  | .tickRampUp => tickRampUp c s
  | .tickRampDown => tickRampDown c s
  | .tickAllOn => tickAllOn c s
  | .tickAllOff => tickAllOff c s
  | .tickHaltPending => tickHaltPending c s
  | .tickHalted => tickHalted s
  | .sample _ => sample c s
  | .drive m => drive c m s
  | .report r => execReport r s
  | .set l v => microOp c (.set l v) s
  | .get l => microOp c (.get l) s
  | .wait n => microOp c (.wait n) s

/-- A tick begins: its mask is complete before its frame starts (R107); HALTED does nothing (R113). -/
def beginTick (s : State) : State :=
  { s with
    mask := tickMask s
    upc  := if s.state = .halted then s.upc else .driving (tickMask s) 0 true }

/-- A `DRIVE` outside a tick begins. -/
def beginDrive (m : Byte) (s : State) : State := { s with upc := .driving m 0 false }

/-- A `SAMPLE` begins, alone or for `STATUS`. -/
def beginSample (forStatus : Bool) (s : State) : State := { s with upc := .sampling 0 forStatus }

/-- After micro-step `k` of `DRIVE(m)`: the next one, or the return to idle with the update of a tick (R107) or, of a
`DRIVE` on its own, with what it returns (R20, R91). -/
def leaveDriveRow (c : Params) (m : Byte) (k : Nat) (byTick : Bool) (s : State) : State :=
  if k + 1 < (driveRows c m).length then { s with upc := .driving m (k + 1) byTick }
  else if byTick then tickTail { s with upc := .idle }
  else finishDrive c { s with upc := .idle }

/-- After micro-step `k` of `SAMPLE()`: the next one, or the return (R20). -/
def leaveSampleRow (c : Params) (k : Nat) (forStatus : Bool) (s : State) : State :=
  if k + 1 < (sampleRows c).length then { s with upc := .sampling (k + 1) forStatus }
  else finishSample forStatus { s with upc := .idle }

/-- One row as a step of its own, refused where its micro-operation is. -/
def stepRow (c : Params) (r : Option MicroStep) (leave : State → State) (s : State) : Answer :=
  match r with
  | none => .refused .upcOutOfRange
  | some r => andThen (microOp c r.op s) fun t => .next (leave (applyNote r.note t))

/-- One micro-step of the running operation (R20). -/
def microStep (c : Params) (s : State) : Answer :=
  match s.upc with
  | .idle => .next s
  | .driving m k byTick => stepRow c (driveRows c m)[k]? (leaveDriveRow c m k byTick) s
  | .sampling k forStatus => stepRow c (sampleRows c)[k]? (leaveSampleRow c k forStatus) s

/-- `bitidx`, the loop index of the running operation, a function of `upc` (R18, R89, R99). DESIGN CHOICE (log 7): none
outside the eight slots, where the spec calls it dead. -/
def bitidx (c : Params) (s : State) : Option (BitVec 3) :=
  match s.upc with
  | .idle => none
  | .driving _ k _ =>
    if k < 2 ∨ 8 ≤ (k - 2) / slotLength c then none else some (BitVec.ofNat 3 (7 - (k - 2) / slotLength c))
  | .sampling k _ =>
    if k < 3 ∨ 8 ≤ (k - 3) / 5 then none else some (BitVec.ofNat 3 (7 - (k - 3) / 5))

/-- An instruction begins in the event-by-event view: `DRIVE`, `SAMPLE` and a selected tick arm that drives start
their micro-steps; what has at most one event of its own runs whole. -/
def beginInstr (c : Params) (i : Instr) (s : State) : Answer :=
  match i with
  | .tick _ => whenIdle s (.next (beginTick s))
  | .tickRampUp => whenSelected .rampUp s (.next (beginTick s))
  | .tickRampDown => whenSelected .rampDown s (.next (beginTick s))
  | .tickAllOn => whenSelected .allOn s (.next (beginTick s))
  | .tickAllOff => whenSelected .allOff s (.next (beginTick s))
  | .tickHaltPending => whenSelected .haltPending s (.next (beginTick s))
  | .tickHalted => whenSelected .halted s (.next (beginTick s))
  | .sample _ => whenIdle s (.next (beginSample false s))
  | .drive m => whenIdle s (.next (beginDrive m s))
  | .report r => operate c (.report r) s
  | .set l v => operate c (.set l v) s
  | .get l => operate c (.get l) s
  | .wait n => operate c (.wait n) s

end Sys2Proof.Machine
end

