-- ==== Sys2Proof/Machine/HostCalls.lean ====
section
/-! DEFINITION. The step relation under any parameters (R10): what an idle core does with the next move of the host
(R148, R149) or with a code placed on the bench, in either view of D1, and how a running operation goes on. -/

namespace Sys2Proof.Machine

/-- An instruction: whole, or only begun, as the view says (D1). -/
def runInstr (c : Params) (i : Instr) (s : State) : Answer :=
  match s.grain with
  | .operation => operate c i s
  | .event => beginInstr c i s

/-- A code placed on the bench. A reserved spelling is refused (R70). -/
def runWord (c : Params) (code : Code) (s : State) : Answer :=
  match decode code with
  | .error e => .refused (.illegalWord e)
  | .ok i => runInstr c i s

/-- `STATUS()` as a call (R124). -/
def callStatus (c : Params) (s : State) : Answer :=
  match s.grain with
  | .operation => status c s
  | .event => whenIdle s (.next (beginSample true s))

/-- The host reads `committed`; before the first `DRIVE` there is nothing to read (R16, R149). -/
def readCommitted (s : State) : Answer :=
  match s.committed with
  | none => .refused .committedNone
  | some m => .next (giveBack (.committed m) s)

/-- The host reads `linelevels`, which the board has with `DIAG_READBACK` (R23, R148). -/
def readLineLevels (c : Params) (s : State) : Answer :=
  if c.diagReadback then .next (giveBack (lineLevels s) s) else .refused .noReadback

/-- One call of the host (R148, R151). -/
def runCall (c : Params) (call : Call) (s : State) : Answer :=
  match call with
  | .tick => runInstr c (.tick 0x00#8) s
  | .status => callStatus c s
  | .readState => .next (giveBack (.stepName s.state) s)
  | .readHalted => .next (giveBack (.halted s.halted) s)
  | .readCommitted => readCommitted s
  | .readLineLevels => readLineLevels c s

/-- One move from outside. -/
def runMove (c : Params) (m : Move) (s : State) : Answer :=
  match m with
  | .host call => runCall c call s
  | .processStart => .next (restart s)

/-- The core is idle: it takes the oldest code on the bench, or else the oldest move, or, with none, waits as it
is. -/
def takeMove (c : Params) (s : State) : Answer :=
  match s.placed with
  | code :: rest => runWord c code { s with placed := rest }
  | [] =>
    match s.moves with
    | m :: rest => runMove c m { s with moves := rest }
    | [] => .next s

/-- The step relation: the next move if the core is idle, the next event of the running operation if it is not. -/
def advance (c : Params) (s : State) : Answer :=
  match s.upc with
  | .idle => takeMove c s
  | .driving _ _ _ => microStep c s
  | .sampling _ _ => microStep c s

/-- One iteration of the host, `HOST_ITER` (R74, R152): the order of the two calls is the host's. -/
def hostIteration (statusFirst : Bool) : List Move :=
  if statusFirst then [.host .status, .host .tick] else [.host .tick, .host .status]

/-- The state in which the operation `code` is what runs next. A state code is no word of its own: it is the value of
`state`, which selects the arm, so it is put there as well (R60, R107; log 2, log 4). -/
def placeCode (code : Code) (s : State) : State :=
  { s with
    placed := code :: s.placed
    upc    := .idle
    grain  := .operation
    state  := match code with
      | .t w => (SeqState.ofCode w.toNat).getD s.state
      | .h _ => s.state
      | .u _ => s.state }

end Sys2Proof.Machine
end

