-- ==== Sys2Proof/Machine/Step.lean ====
section
/-! DEFINITION. The step, and the state in which a given word of the opcode table is what runs next. -/

namespace Sys2Proof.Machine

/-- One step of the machine: the step relation at the parameters of this board. -/
def step (s : State) : Host.Outcome State Fault Refusal := advance Config.board s

/-- `s` with the word `w` of the opcode table placed to run next; `s` itself where `nbits` and `w` are no word of the
table's widths. -/
def State.withFetchWord (s : State) (nbits w : Nat) : State :=
  match tableCode nbits w with
  | some code => placeCode code s
  | none => s

end Sys2Proof.Machine
end

