-- ==== Sys2Proof/Safety.lean ====
section
/-! DEFINITION. The terms claims are stated in: the events the spec lists for a frame, the run table of the
sequencer, what the host may do, and the invariants of the sequencer and of a frame in progress. -/

namespace Sys2Proof.Safety

open Sys2Proof.Machine

/-! ### The events of a frame, as the spec lists them -/

/-- Slot `k` of an output frame carries `m[7-k]` (R57). -/
def outSlotEvents (m : Byte) (k : Nat) : List Event :=
  [.write .oClk false, .write .oData (m.getLsbD (7 - k)), .write .oClk true]

/-- The 28 events of `DRIVE(m)` with `T_SETUP = 0`, no read-back and a 5 microsecond hold (R87). -/
def driveEvents (oeOn : Level) (m : Byte) : List Event :=
  [.write .oOe oeOn, .write .oLatch false]
    ++ [0, 1, 2, 3, 4, 5, 6, 7].flatMap (outSlotEvents m)
    ++ [.write .oLatch true, .delay 5]

/-- The four reads of the diagnostic read-back: `(m[0], 1, 1, OE_ON)` (R91). -/
def readBackEvents (oeOn : Level) (m : Byte) : List Event :=
  [.read .oData (m.getLsbD 0), .read .oClk true, .read .oLatch true, .read .oOe oeOn]

/-- The events of `DRIVE(m)` under any parameters: with the set-up wait of R93 in every slot where `T_SETUP` is not 0,
and the read-back of R91 where `DIAG_READBACK` asks for it (R87). -/
def frameEvents (c : Params) (m : Byte) : List Event :=
  [.write .oOe c.oeOn, .write .oLatch false]
    ++ ([7, 6, 5, 4, 3, 2, 1, 0].flatMap fun i => [.write .oClk false, .write .oData (m.getLsbD i)]
        ++ (if c.tSetup = 0 then [] else [.delay c.tSetup]) ++ [.write .oClk true])
    ++ [.write .oLatch true, .delay c.tLatchHold]
    ++ (if c.diagReadback then readBackEvents c.oeOn m else [])

/-- Slot `k` of an input frame that returns `r` reads `r[7-k]` (R58). -/
def inSlotEvents (r : Byte) (k : Nat) : List Event :=
  [.write .iClk false, .delay 2, .read .iData (r.getLsbD (7 - k)), .write .iClk true, .delay 2]

/-- The 43 events of a `SAMPLE()` that returns `r` (R97). -/
def sampleEvents (r : Byte) : List Event :=
  [.write .iLoad false, .delay 5, .write .iLoad true] ++ [0, 1, 2, 3, 4, 5, 6, 7].flatMap (inSlotEvents r)

/-- An event writes a line of the output register (R158). -/
def Event.onOutputRegister : Event → Bool
  | .write .oData _ | .write .oClk _ | .write .oLatch _ | .write .oOe _ => true
  | .write .iData _ | .write .iClk _ | .write .iLoad _ | .read _ _ | .delay _ => false

/-- The level an event writes on `O_DATA`, if it does. -/
def Event.dataWritten : Event → Option Level
  | .write .oData v => some v
  | .write .oClk _ | .write .oLatch _ | .write .oOe _ | .write .iData _ | .write .iClk _ | .write .iLoad _ => none
  | .read _ _ | .delay _ => none

/-! ### The input lines during the load pulse of the next `SAMPLE` -/

/-- The input lines at `W(I_LOAD,0)`. -/
def atLoadLow (s : State) : Byte := (passed s).getLastD s.inputs

/-- Every level of the input lines that is still to come in the load pulse of the next `SAMPLE`, in order: those they
have at its `W(I_LOAD,0)` (if the pulse is open already, when that write makes no edge: those they pass through up to
it), and those they pass through up to the wait and up to `W(I_LOAD,1)`. -/
def pulseLevels (s : State) : List Byte :=
  (if s.pulse = none then [atLoadLow s] else passed s)
    ++ (s.upcoming.tail.headD [] ++ s.upcoming.tail.tail.headD [])

/-- Bit `i` of the input lines has been at `b` in the load pulse that is open, if one is. -/
def SeenInPulse (s : State) (i : Nat) (b : Level) : Prop :=
  ∃ q, s.pulse = some q ∧ (if b then q.high else q.low).getLsbD i = true

/-- The load pulse that is open, if one is, has seen the input lines at `v` and no other level. -/
def PulseSteady (s : State) (v : Byte) : Prop := ∀ q, s.pulse = some q → q = .starting v

/-- `q'` knows the levels `q` knows and those of `l`, and no more. -/
def Adds (q : Pulse) (l : List Byte) (q' : Pulse) : Prop :=
  ∀ i, i < 8 →
    (q'.high.getLsbD i = true ↔ q.high.getLsbD i = true ∨ ∃ x ∈ l, x.getLsbD i = true) ∧
    (q'.low.getLsbD i = true ↔ q.low.getLsbD i = true ∨ ∃ x ∈ l, x.getLsbD i = false)

/-- Every bit of `r` is a level its line had at some instant of the load pulse (R134). -/
def CaughtInPulse (s : State) (r : Byte) : Prop :=
  ∀ i, i < 8 → (∃ x ∈ pulseLevels s, r.getLsbD i = x.getLsbD i) ∨ SeenInPulse s i (r.getLsbD i)

/-- A load pulse is open only while `I_LOAD` is low, and of every input line it is known that it took some level in
it. -/
def PulseKnown (s : State) : Prop :=
  ∀ q, s.pulse = some q → q.low ||| q.high = 0xFF#8 ∧ s.lvl.iLoad = false

/-! ### What an operation leaves alone -/

/-- The sequencer's registers are the same (owner RelaySequencer, R30). -/
def SameSequencer (s t : State) : Prop := t.mask = s.mask ∧ t.cursor = s.cursor ∧ t.state = s.state

/-- The output register and `DEV_OUT` are the same (owner SerialOutRegister, R30). -/
def SameOutput (s t : State) : Prop :=
  t.committed = s.committed ∧ t.sh = s.sh ∧ t.lat = s.lat ∧ t.lvl.oData = s.lvl.oData ∧ t.lvl.oClk = s.lvl.oClk ∧
    t.lvl.oLatch = s.lvl.oLatch ∧ t.lvl.oOe = s.lvl.oOe

/-- The input register and `DEV_IN` are the same (owner SerialInRegister, R30). -/
def SameInput (s t : State) : Prop :=
  t.acc = s.acc ∧ t.p = s.p ∧ t.lvl.iClk = s.lvl.iClk ∧ t.lvl.iLoad = s.lvl.iLoad

/-- No operation is begun or ended, and what is to come from outside, and the view, are the same. -/
def SameOutside (s t : State) : Prop :=
  t.upc = s.upc ∧ t.moves = s.moves ∧ t.placed = s.placed ∧ t.grain = s.grain

/-- The same, and nothing has been returned. -/
def SameHost (s t : State) : Prop := SameOutside s t ∧ t.results = s.results

/-! ### The run table -/

/-- The masks driven from reset, one a tick, 19 in all (R114, V15). -/
def drivenMasks : List Byte :=
  [0x01#8, 0x03#8, 0x07#8, 0x0F#8, 0x1F#8, 0x3F#8, 0x7F#8, 0xFF#8]
    ++ [0x7F#8, 0x3F#8, 0x1F#8, 0x0F#8, 0x07#8, 0x03#8, 0x01#8, 0x00#8]
    ++ [0xFF#8, 0x00#8, 0x00#8]

/-- `mask` after `n` ticks from reset (R114). -/
def maskAfter (n : Nat) : Byte :=
  match n with
  | 0 => 0x00#8
  | k + 1 => drivenMasks.getD k 0x00#8

/-- `state` after `n` ticks from reset (R114). -/
def stateAfter (n : Nat) : SeqState :=
  if n < 8 then .rampUp else if n < 16 then .rampDown else if n = 16 then .allOn
  else if n = 17 then .allOff else if n = 18 then .haltPending else .halted

/-- `cursor` after `n` ticks from reset (R114). -/
def cursorAfter (n : Nat) : BitVec 3 :=
  if n < 8 then BitVec.ofNat 3 n else if n < 16 then BitVec.ofNat 3 (15 - n) else 0#3

/-- The sequencer is where `n` ticks from reset leave it. -/
def AfterTicks (n : Nat) (s : State) : Prop :=
  s.state = stateAfter n ∧ s.cursor = cursorAfter n ∧ s.mask = maskAfter n

/-! ### The host -/

/-- Nothing is on the bench: what an idle core does next is a move of the host, or a start of the process. The host
itself has no move that breaks the ownership rule (R30, R148, R149, R151). -/
def BenchEmpty (s : State) : Prop := s.placed = []

/-- The process is not started again next. -/
def NoStartNext (s : State) : Prop := s.moves.head? ≠ some .processStart

/-- How many `TICK` calls a list of moves holds. -/
def tickCount (moves : List Move) : Nat := moves.count (.host .tick)

/-- Only `TICK` and `STATUS`: what "the host may invoke" is exactly (R148). -/
def OnlyTickOrStatus (moves : List Move) : Prop := ∀ m ∈ moves, m = .host .tick ∨ m = .host .status

/-! ### Invariants -/

/-- The mask that belongs to a sequencer state and cursor between two ticks (R31 item 2). -/
def expectedMask (st : SeqState) (cursor : BitVec 3) : Byte :=
  match st with
  | .rampUp => (1#8 <<< cursor.toNat) - 1#8
  | .rampDown => (1#8 <<< (cursor.toNat + 1)) - 1#8
  | .allOn => 0x00#8
  | .allOff => 0xFF#8
  | .haltPending => 0x00#8
  | .halted => 0x00#8

/-- The mask the tick of a sequencer state and cursor drives, from the mask that belongs there. -/
def frameMask (st : SeqState) (cursor : BitVec 3) : Byte :=
  match st with
  | .rampUp => (1#8 <<< (cursor.toNat + 1)) - 1#8
  | .rampDown => (1#8 <<< cursor.toNat) - 1#8
  | .allOn => 0xFF#8
  | .allOff => 0x00#8
  | .haltPending => 0x00#8
  | .halted => 0x00#8

/-- The sequencer invariant of R31 item 2, also while the frame of a tick is being sent: then `mask` is already
the frame's, and `state` and `cursor` are still those of the tick (R19). -/
def SequencerInv (s : State) : Prop :=
  BenchEmpty s ∧
  match s.upc with
  | .idle => s.mask = expectedMask s.state s.cursor
  | .sampling _ _ => s.mask = expectedMask s.state s.cursor
  | .driving m _ byTick =>
    byTick = true ∧ s.state ≠ .halted ∧ s.mask = m ∧ m = frameMask s.state s.cursor

/-- How many slots of an output frame are complete before its micro-step `k` (R89). -/
def slotsDone (k : Nat) : Nat := min 8 ((k - 2) / slotLength Config.board)

/-- The outputs show the committed mask, if there is one (R16, R131). -/
def ShowsCommitted (s : State) : Prop :=
  ∀ m, s.committed = some m → s.lat = m ∧ s.lvl.oOe = Config.board.oeOn

/-- Where the lines and `DEV_OUT` stand before micro-step `k` of `DRIVE(m)` (R89, R129, R130, R132). -/
def FrameInProgress (m : Byte) (k : Nat) (s : State) : Prop :=
  k < driveLength Config.board ∧
  (1 ≤ k → s.lvl.oOe = Config.board.oeOn) ∧
  (2 ≤ k → k ≤ latchStep Config.board → s.lvl.oLatch = false) ∧
  (∀ i, i < slotsDone k → s.sh.getLsbD i = m.getLsbD (8 - slotsDone k + i)) ∧
  (2 ≤ k → k < latchStep Config.board → (k - 2) % slotLength Config.board ≠ 0 → s.lvl.oClk = false) ∧
  (2 ≤ k → k < latchStep Config.board → 2 ≤ (k - 2) % slotLength Config.board →
    s.lvl.oData = m.getLsbD (7 - (k - 2) / slotLength Config.board)) ∧
  (k ≤ latchStep Config.board → ShowsCommitted s) ∧
  (latchStep Config.board < k → s.lat = m ∧ s.committed = some m)

/-- The output side while nothing is on the bench: idle, the outputs show the committed mask; in a frame, the frame is
as far as `upc` says and the outputs still show the previous one (R42). -/
def OutputInv (s : State) : Prop :=
  BenchEmpty s ∧
  match s.upc with
  | .idle => ShowsCommitted s
  | .sampling _ _ => ShowsCommitted s
  | .driving m k _ => FrameInProgress m k s

/-- R31 item 3: between two ticks the committed mask is `mask`, once a tick has run; before the first the sequencer
is where reset puts it. In the frame of a tick the two agree from the latch on (R88). -/
def CommittedInv (s : State) : Prop :=
  BenchEmpty s ∧
  match s.upc with
  | .idle => s.committed = some s.mask ∨ (s.committed = none ∧ s.state = .rampUp ∧ s.cursor = 0#3)
  | .sampling _ _ => s.committed = some s.mask ∨ (s.committed = none ∧ s.state = .rampUp ∧ s.cursor = 0#3)
  | .driving m k byTick =>
    byTick = true ∧ k < driveLength Config.board ∧ s.mask = m ∧ (latchStep Config.board < k → s.committed = some m)

/-- Where a running operation can stand: `upc` inside its table of this board (R89, R99), and `I_LOAD` high again
once the load pulse of a `SAMPLE` is over (R97). -/
def RunningInv (s : State) : Prop :=
  match s.upc with
  | .idle => True
  | .driving _ k _ => k < driveLength Config.board
  | .sampling k _ => k < 43 ∧ (3 ≤ k → s.lvl.iLoad = true)

end Sys2Proof.Safety
end

