-- ==== Sys2Proof/Certificates/Slice0/Obligations.lean ====
section
/-! DEFINITION. The statements for the provers. Where a docstring says "the model's choice" it names the log entry
(notes/assumptions) or the decision of 92_eei_decisions.md that the statement rests on. -/

open Sys2Proof Sys2Proof.Machine Sys2Proof.Safety

/-! ### Encoding (30_encoding.md; the codes themselves are decisions D2 to D5) -/

/-- Decoding the code of a well-formed instruction gives the instruction back, whatever its operands (R60 to R62;
codes: D2 to D5). -/
def Obligations.DecodeEncodeRoundTrip : Prop :=
  ∀ i : Instr, i.wellFormed = true → decode (encode i) = .ok i

/-- A code has one meaning: what decodes to an instruction is that instruction's code, and the instruction is well
formed (R60 to R62, R70). -/
def Obligations.EncodeDecodeRoundTrip : Prop :=
  ∀ (c : Code) (i : Instr), decode c = .ok i → i.wellFormed = true ∧ encode i = c

/-- Every reserved or illegal spelling of R70 is refused, by its own name; `WAIT n` is accepted for every `n`, 0
among them (D24). -/
def Obligations.ReservedSpellingsRefused : Prop :=
  (∀ w : BitVec 3, 6 ≤ w.toNat → decode (.t w) = .error .reservedState) ∧
  (∀ x : BitVec 6, decode (.u (0b11#2 ++ x)) = .error .reservedKind) ∧
  (∀ (l : BitVec 3) (v : BitVec 1) (z : BitVec 2), z ≠ 0#2 →
    decode (.u (0b00#2 ++ l ++ v ++ z)) = .error .setReservedBits) ∧
  (∀ v : BitVec 1, decode (.u (0b00#2 ++ 4#3 ++ v ++ 0#2)) = .error .setOnInput) ∧
  (∀ v : BitVec 1, decode (.u (0b00#2 ++ 7#3 ++ v ++ 0#2)) = .error .setNoLine) ∧
  (∀ (l : BitVec 3) (z : BitVec 3), z ≠ 0#3 → decode (.u (0b01#2 ++ l ++ z)) = .error .getReservedBits) ∧
  (∀ l : BitVec 3, 5 ≤ l.toNat → decode (.u (0b01#2 ++ l ++ 0#3)) = .error .getUnusedLine) ∧
  (∀ n : BitVec 6, decode (.u (0b10#2 ++ n)) = .ok (.wait n.toNat))

/-- A few words as 95_test_vectors.md spells them (V1, section 3): one of each family. -/
def Obligations.SpelledWordsDecode : Prop :=
  decode (.u 0x14#8) = .ok (.set .oLatch true) ∧ decode (.u 0x28#8) = .ok (.set .iClk false) ∧
  decode (.u 0x60#8) = .ok (.get .iData) ∧ decode (.u 0x85#8) = .ok (.wait 5) ∧
  decode (.h 0x000#10) = .ok (.tick 0x00#8) ∧ decode (.h 0x100#10) = .ok (.sample 0x00#8) ∧
  decode (.h 0x2A5#10) = .ok (.drive 0xA5#8) ∧ decode (.h 0x3FE#10) = .ok (.report 0xFE#8) ∧
  decode (.t 4#3) = .ok .tickHaltPending

/-! ### The step -/

/-- When the core is idle and a code that decodes to `i` is on the bench, a step (in the view of whole operations) is
`exec i` with the code taken off; with nothing on the bench and a `TICK` of the host next, it is `exec` of a tick, with
that move taken off, whatever the argument bits, which the tick ignores (R61). -/
def Obligations.StepRunsDecodedInstruction : Prop :=
  (∀ (s : State) (code : Code) (rest : List Code) (i : Instr),
    s.upc = .idle → s.grain = .operation → s.placed = code :: rest → decode code = .ok i →
    step s = exec i { s with placed := rest }) ∧
  (∀ (s : State) (rest : List Move) (a : Byte),
    s.upc = .idle → s.grain = .operation → s.placed = [] → s.moves = .host .tick :: rest →
    step s = exec (.tick a) { s with moves := rest })

/-- In the same place a reserved spelling is refused by name (R70). -/
def Obligations.StepRefusesReservedWord : Prop :=
  ∀ (s : State) (code : Code) (rest : List Code) (e : DecodeError),
    s.upc = .idle → s.placed = code :: rest → decode code = .error e → step s = .refused (.illegalWord e)

/-- An idle core with nothing to do waits as it is: "the only events that make the core act are the host's calls"
(R147). That waiting is a step is the model's choice (log 2). -/
def Obligations.StepWaitsWithoutCall : Prop :=
  ∀ s : State, s.upc = .idle → s.placed = [] → s.moves = [] → step s = .next s

/-- In the event-by-event view a call of `TICK` or `STATUS`, or a `TICK`, `SAMPLE` or `DRIVE` on the bench, only begins
its frame, a micro-operation runs whole, and a running operation goes on by its next micro-step whatever is to come
from outside (R20; the view is D1, log 1; the bench is log 2). -/
def Obligations.EventViewBeginsAndGoesOn : Prop :=
  (∀ (s : State) (rest : List Move), s.upc = .idle → s.grain = .event → s.placed = [] →
    s.moves = .host .tick :: rest → step s = .next (beginTick { s with moves := rest })) ∧
  (∀ (s : State) (rest : List Move), s.upc = .idle → s.grain = .event → s.placed = [] →
    s.moves = .host .status :: rest → step s = .next { s with moves := rest, upc := .sampling 0 true }) ∧
  (∀ (s : State) (rest : List Code) (a : Byte), s.upc = .idle → s.grain = .event →
    s.placed = .h (0b00#2 ++ a) :: rest → step s = .next (beginTick { s with placed := rest })) ∧
  (∀ (s : State) (rest : List Code) (a : Byte), s.upc = .idle → s.grain = .event →
    s.placed = .h (0b01#2 ++ a) :: rest → step s = .next { s with placed := rest, upc := .sampling 0 false }) ∧
  (∀ (s : State) (rest : List Code) (m : Byte), s.upc = .idle → s.grain = .event →
    s.placed = .h (0b10#2 ++ m) :: rest → step s = .next { s with placed := rest, upc := .driving m 0 false }) ∧
  (∀ (s : State) (rest : List Code) (w : BitVec 8) (i : Instr), s.upc = .idle → s.grain = .event →
    s.placed = .u w :: rest → decode (.u w) = .ok i → step s = exec i { s with placed := rest }) ∧
  (∀ s : State, s.upc ≠ .idle → step s = microStep Config.board s)

/-! ### SET, GET, WAIT (40_gpio_primitives.md) and the devices (45_peripheral_devices.md) -/

/-- `SET L,v` on every output line: the line takes the level, the event is emitted, every other line and register
of the core keeps its value; in the devices only what reacts to a rising edge of that line may change: `sh` to
`O_CLK`, `lat` to `O_LATCH`, `p` to `I_CLK` and `I_LOAD` (R77, R129, R130, R134, R136; that `W(I_LOAD,0)` leaves `p` is
log 37, and that a falling clock edge in the load pulse is no error log 11, both the model's choice). Left out is the
one clock edge of `RefusedLineAccesses`. -/
def Obligations.SetWritesItsLine : Prop :=
  ∀ (l : Line) (v : Level) (s : State), l ≠ .iData →
    ¬ (l = .iClk ∧ v = true ∧ s.lvl.iClk = false ∧ s.lvl.iLoad = false) →
    ∃ t, exec (.set l v) s = .next t ∧ t.level l = v ∧ t.trace = s.trace ++ [.write l v] ∧
      (∀ l', l' ≠ l → l' ≠ .iData → t.level l' = s.level l') ∧
      SameSequencer s t ∧ SameHost s t ∧ t.committed = s.committed ∧ t.acc = s.acc ∧
      ((l = .oClk ∧ v = true ∧ s.lvl.oClk = false) ∨ t.sh = s.sh) ∧
      ((l = .oLatch ∧ v = true ∧ s.lvl.oLatch = false) ∨ t.lat = s.lat) ∧
      ((v = true ∧ ((l = .iClk ∧ s.lvl.iClk = false) ∨ (l = .iLoad ∧ s.lvl.iLoad = false))) ∨ t.p = s.p)

/-- A rising edge of `O_CLK` shifts `lvl[O_DATA]` into `sh[0]` and the rest one place up; the latches do not
follow, and `DEV_IN` sees nothing (R129, R138; the direction is derived in R129). -/
def Obligations.OutputClockShifts : Prop :=
  ∀ s : State, s.lvl.oClk = false →
    ∃ t, exec (.set .oClk true) s = .next t ∧ t.sh.getLsbD 0 = s.lvl.oData ∧
      (∀ i, i < 7 → t.sh.getLsbD (i + 1) = s.sh.getLsbD i) ∧ t.lat = s.lat ∧ t.p = s.p

/-- A rising edge of `O_LATCH` moves `sh` into `lat`; a falling edge, or a write that makes no edge, changes
neither; and no other line access, a clock edge under a high or a low latch among them, changes `lat` (R130). -/
def Obligations.OutputLatchTransfers : Prop :=
  (∀ s : State, s.lvl.oLatch = false →
    ∃ t, exec (.set .oLatch true) s = .next t ∧ t.lat = s.sh ∧ t.sh = s.sh) ∧
  (∀ s : State, s.lvl.oLatch = true →
    ∃ t, exec (.set .oLatch true) s = .next t ∧ t.lat = s.lat ∧ t.sh = s.sh) ∧
  (∀ s : State, ∃ t, exec (.set .oLatch false) s = .next t ∧ t.lat = s.lat ∧ t.sh = s.sh) ∧
  (∀ (s : State) (v : Level), ∃ t, exec (.set .oClk v) s = .next t ∧ t.lat = s.lat) ∧
  (∀ (s t : State) (l : Line) (v : Level), l ≠ .oLatch → exec (.set l v) s = .next t → t.lat = s.lat) ∧
  (∀ (s t : State) (l : Line), exec (.get l) s = .next t → t.lat = s.lat) ∧
  (∀ (s t : State) (n : Nat), exec (.wait n) s = .next t → t.lat = s.lat)

/-- A rising edge of `I_CLK` with `I_LOAD` high shifts `p` one place up (the bit that enters is any value, D15); a
falling edge moves nothing (R136, C3; that it is no error while `I_LOAD` is low is log 11, the model's choice). -/
def Obligations.InputClockShifts : Prop :=
  (∀ s : State, s.lvl.iClk = false → s.lvl.iLoad = true →
    ∃ t, exec (.set .iClk true) s = .next t ∧ (∀ i, i < 7 → t.p.getLsbD (i + 1) = s.p.getLsbD i) ∧
      t.sh = s.sh ∧ t.lat = s.lat) ∧
  (∀ s : State, ∃ t, exec (.set .iClk false) s = .next t ∧ t.p = s.p)

/-- The load pulse: `W(I_LOAD,0)` opens one, notes the levels the lines have then, and leaves `p`; with one open
already it makes no edge, so the pulse goes on (R77) and, as at a wait, every level the lines took up to then is added;
the rising edge of `I_LOAD` gives each bit of `p` a level that its line had in the pulse, up to the edge, and ends it
(R134; the freedom is D14, log 9; that `p` stays in the low phase is log 37, the model's choice; the field that
notes the levels is log 32). -/
def Obligations.LoadPulseCaptures : Prop :=
  (∀ s : State, s.pulse = none → ∃ t, exec (.set .iLoad false) s = .next t ∧ t.p = s.p ∧
    t.inputs = (passed s).getLastD s.inputs ∧ t.pulse = some { low := ~~~t.inputs, high := t.inputs }) ∧
  (∀ (s : State) (q : Pulse), s.pulse = some q → ∃ t q', exec (.set .iLoad false) s = .next t ∧ t.p = s.p ∧
    t.pulse = some q' ∧ Adds q (passed s) q') ∧
  (∀ (s : State) (q : Pulse) (n : Nat), s.pulse = some q → ∃ t q', exec (.wait n) s = .next t ∧ t.p = s.p ∧
    t.pulse = some q' ∧ Adds q (passed s) q') ∧
  (∀ (s : State) (q : Pulse), s.pulse = some q → PulseKnown s → ∃ t, exec (.set .iLoad true) s = .next t ∧
    t.pulse = none ∧ ∀ i, i < 8 →
      (t.p.getLsbD i = true → q.high.getLsbD i = true ∨ ∃ x ∈ passed s, x.getLsbD i = true) ∧
      (t.p.getLsbD i = false → q.low.getLsbD i = true ∨ ∃ x ∈ passed s, x.getLsbD i = false))

/-- The line accesses to which the spec gives no meaning are refused by name: `SET I_DATA`, `GET I_CLK`,
`GET I_LOAD` (R70), and a rising clock edge in the low phase of the load pulse (R134, U18; that of the two edges the
rising one is refused is log 11). -/
def Obligations.RefusedLineAccesses : Prop :=
  (∀ (v : Level) (s : State), exec (.set .iData v) s = .refused (.illegalLine .iData)) ∧
  (∀ s : State, exec (.get .iClk) s = .refused (.illegalLine .iClk)) ∧
  (∀ s : State, exec (.get .iLoad) s = .refused (.illegalLine .iLoad)) ∧
  (∀ s : State, s.lvl.iClk = false → s.lvl.iLoad = false →
    exec (.set .iClk true) s = .refused .clockDuringLoad)

/-- `GET L`: the event carries the level, `p[7]` for `I_DATA` and the level last written for an `O_*` line, and
nothing of the core or of the devices changes (R78, R135; the read-back value is D26; that `p[7]` is what is read while
`I_LOAD` is low too is log 37, the model's choice). -/
def Obligations.GetReadsTheLine : Prop :=
  ∀ s : State,
    (∃ t, exec (.get .iData) s = .next t ∧ t.trace = s.trace ++ [.read .iData (s.p.getLsbD 7)] ∧
      SameSequencer s t ∧ SameOutput s t ∧ SameInput s t ∧ SameHost s t) ∧
    (∃ t, exec (.get .oData) s = .next t ∧ t.trace = s.trace ++ [.read .oData s.lvl.oData] ∧
      SameSequencer s t ∧ SameOutput s t ∧ SameInput s t ∧ SameHost s t) ∧
    (∃ t, exec (.get .oClk) s = .next t ∧ t.trace = s.trace ++ [.read .oClk s.lvl.oClk] ∧
      SameSequencer s t ∧ SameOutput s t ∧ SameInput s t ∧ SameHost s t) ∧
    (∃ t, exec (.get .oLatch) s = .next t ∧ t.trace = s.trace ++ [.read .oLatch s.lvl.oLatch] ∧
      SameSequencer s t ∧ SameOutput s t ∧ SameInput s t ∧ SameHost s t) ∧
    (∃ t, exec (.get .oOe) s = .next t ∧ t.trace = s.trace ++ [.read .oOe s.lvl.oOe] ∧
      SameSequencer s t ∧ SameOutput s t ∧ SameInput s t ∧ SameHost s t)

/-- `WAIT n` emits `D(n)` and changes no register and no line of the core and nothing in the devices; only the
input lines may move (R79). -/
def Obligations.WaitOnlyPasses : Prop :=
  ∀ (n : Nat) (s : State), ∃ t, exec (.wait n) s = .next t ∧ t.trace = s.trace ++ [.delay n] ∧
    SameSequencer s t ∧ SameOutput s t ∧ SameInput s t ∧ SameHost s t

/-! ### DRIVE (41_serial_out.md) -/

/-- `DRIVE(m)` on this board emits the events of the five steps, leaves the four lines and `committed` as R87 says,
and touches nothing else of the core; the events are the 28 that R87 lists where `T_SETUP` is 0, the hold 5
microseconds and nothing is read back, and on this board they are those 28, followed by the read-back where
`DIAG_READBACK` asks for it. -/
def Obligations.DriveSendsTheFrame : Prop :=
  (∀ (m : Byte) (s : State), s.upc = .idle →
    ∃ t, exec (.drive m) s = .next t ∧ t.trace = s.trace ++ frameEvents Config.board m ∧
      t.lvl.oOe = false ∧ t.lvl.oLatch = true ∧ t.lvl.oClk = true ∧ t.lvl.oData = m.getLsbD 0 ∧
      t.committed = some m ∧ SameSequencer s t ∧ SameInput s t ∧ SameOutside s t) ∧
  (∀ (c : Params) (m : Byte), c.tSetup = 0 → c.tLatchHold = 5 → c.diagReadback = false →
    frameEvents c m = driveEvents c.oeOn m ∧ (driveEvents c.oeOn m).length = 28) ∧
  (∀ m : Byte, frameEvents Config.board m =
    driveEvents false m ++ (if Config.board.diagReadback then readBackEvents false m else []))

/-- From every start state of the lines and of `DEV_OUT`, after `DRIVE(m)` the shift stage and the latches hold
`m`, and the relays are exactly `m` (R92, R132, both derived there). -/
def Obligations.DriveSetsTheRelays : Prop :=
  ∀ (m : Byte) (s : State), s.upc = .idle →
    ∃ t, exec (.drive m) s = .next t ∧ t.sh = m ∧ t.lat = m ∧ relays Config.board t = m

/-- The two properties the document states of `DRIVE`: the committed mask reads back as `m`, and the bit on the
data line in the k-th slot is bit 7-k of `m` (R94, S1, S2). -/
def Obligations.DriveRoundTripAndBitOrder : Prop :=
  ∀ (m : Byte) (s : State), s.upc = .idle →
    ∃ t, exec (.drive m) s = .next t ∧ readCommitted t = .next (giveBack (.committed m) t) ∧
      ((t.trace.drop s.trace.length).filterMap Event.dataWritten).length = 8 ∧
      ∀ k, k < 8 →
        ((t.trace.drop s.trace.length).filterMap Event.dataWritten)[k]? = some (m.getLsbD (7 - k))

/-- `DRIVE(m)` under any parameters (either polarity of the output enable, with or without set-up wait and
read-back) and whatever the open values are: its events, the levels it leaves, `committed`, what it returns, and that
it writes nothing else of the core: not `upc`, nor what is to come from outside (R87; the parameters are D11, D12). -/
def Obligations.DriveOnEveryBoard : Prop :=
  ∀ (c : Params) (m : Byte) (s : State), s.upc = .idle →
    ∃ t, drive c m s = .next t ∧ t.trace = s.trace ++ frameEvents c m ∧
      t.lvl = { s.lvl with oOe := c.oeOn, oLatch := true, oClk := true, oData := m.getLsbD 0 } ∧
      t.committed = some m ∧ relays c t = m ∧ SameSequencer s t ∧ SameInput s t ∧ SameOutside s t ∧
      t.results = s.results ++ (if c.diagReadback then [.lineLevels (m.getLsbD 0) true true c.oeOn] else [])

/-- With `DIAG_READBACK`, `DRIVE(m)` sends the frame it sends without, then makes the four reads, and returns
`(m[0], 1, 1, OE_ON)` (R91; lines and order: D12). -/
def Obligations.DriveReadsBackItsLines : Prop :=
  ∀ (c : Params) (m : Byte) (s : State), s.upc = .idle → c.diagReadback = true →
    ∃ t, drive c m s = .next t ∧
      t.trace = s.trace ++ frameEvents { c with diagReadback := false } m ++ readBackEvents c.oeOn m ∧
      t.results = s.results ++ [.lineLevels (m.getLsbD 0) true true c.oeOn]

/-- Driving the same mask again sends the whole frame again and leaves the output register, the device and the
relays as after the first (R45, R87, V8). -/
def Obligations.DriveAgainChangesNoRelay : Prop :=
  ∀ (m : Byte) (s t : State), exec (.drive m) s = .next t →
    ∃ u, exec (.drive m) t = .next u ∧ SameOutput t u ∧ relays Config.board u = relays Config.board t ∧
      u.trace = t.trace ++ frameEvents Config.board m

/-! ### SAMPLE (42_serial_in.md), REPORT and STATUS (44_status_reporter.md) -/

/-- `SAMPLE()` emits its 43 events, reads most significant bit first, and returns a byte each of whose bits is a
level that its input line had in the load pulse; the sequencer, the output register and `DEV_OUT` are untouched
(R97, R98, R134, R137; the freedom inside the pulse is D14, log 9). -/
def Obligations.SampleReturnsTheCapture : Prop :=
  ∀ (a : Byte) (s : State), s.upc = .idle → PulseKnown s →
    ∃ t r, exec (.sample a) s = .next t ∧ CaughtInPulse s r ∧ t.results = s.results ++ [.snapshot r] ∧
      t.trace = s.trace ++ sampleEvents r ∧ t.lvl.iLoad = true ∧ t.lvl.iClk = true ∧
      SameSequencer s t ∧ SameOutput s t ∧ SameOutside s t

/-- With the input lines stable across the load pulse the result is their raw levels, bit i being line i+1,
whatever the start levels, the old `p` and the fill bits are (R98, R102, R137; the stability is the premise that D14
asks for). -/
def Obligations.SampleOfStableInputs : Prop :=
  ∀ (a v : Byte) (s : State), s.upc = .idle → (∀ x ∈ pulseLevels s, x = v) → PulseSteady s v →
    ∃ t, exec (.sample a) s = .next t ∧ t.results = s.results ++ [.snapshot v]

/-- Two samples in a row with lines that hold return the same byte: each makes its own load, and the falling edge
at the start of the second shifts nothing (R45, R101, V11, C3). -/
def Obligations.SampleRepeats : Prop :=
  ∀ (a b : Byte) (s : State), s.upc = .idle → s.upcoming = [] → PulseSteady s s.inputs →
    ∃ t u, exec (.sample a) s = .next t ∧ exec (.sample b) t = .next u ∧
      u.results = s.results ++ [.snapshot s.inputs, .snapshot s.inputs]

/-- `REPORT(r)` returns eight characters, character k being '1' where `r[k]` is 0 and '0' where it is 1 (R59), and
changes nothing but what has been returned. -/
def Obligations.ReportShowsTheComplement : Prop :=
  ∀ (r : Byte) (s : State), s.upc = .idle →
    ∃ pattern records, exec (.report r) s = .next (giveBack (.report pattern records) s) ∧ pattern.length = 8 ∧
      ∀ k, k < 8 → pattern[k]? = some (if r.getLsbD k then '0' else '1')

/-- The records of `REPORT(r)`: eight, in line order, each with the line's number, its raw bit and the complement
(R122, R123; the fields are D22). -/
def Obligations.ReportListsEveryLine : Prop :=
  ∀ (r : Byte) (s : State), s.upc = .idle →
    ∃ pattern records, exec (.report r) s = .next (giveBack (.report pattern records) s) ∧ records.length = 8 ∧
      ∀ k, k < 8 → records[k]? = some { line := k + 1, raw := r.getLsbD k, logical := !r.getLsbD k }

/-- `STATUS()` is `SAMPLE()` and then `REPORT` of the snapshot, which is not itself kept among the results
(R124, R34). -/
def Obligations.StatusIsSampleThenReport : Prop :=
  ∀ (s : State) (rest : List Move), s.upc = .idle → s.grain = .operation → s.placed = [] →
    s.moves = .host .status :: rest →
    ∃ t u r, exec (.sample 0x00#8) { s with moves := rest } = .next u ∧ u.results = s.results ++ [.snapshot r] ∧
      exec (.report r) { u with results := s.results } = .next t ∧ step s = .next t

/-! ### TICK (43_relay_sequencer.md) -/

/-- RAMP_UP: "set bit `cursor` of mask, drive mask, increment cursor"; at 8 the state becomes RAMP_DOWN and the
cursor 7 (R108). -/
def Obligations.TickRampUpSetsOneRelay : Prop :=
  ∀ s : State, s.upc = .idle → s.state = .rampUp →
    ∃ t, exec .tickRampUp s = .next t ∧ t.mask = s.mask ||| (1#8 <<< s.cursor.toNat) ∧
      t.committed = some t.mask ∧ t.trace = s.trace ++ frameEvents Config.board t.mask ∧
      (s.cursor = 7#3 → t.state = .rampDown ∧ t.cursor = 7#3) ∧
      (s.cursor ≠ 7#3 → t.state = .rampUp ∧ t.cursor.toNat = s.cursor.toNat + 1) ∧
      SameInput s t ∧ SameHost s t

/-- RAMP_DOWN: bit `cursor` is cleared, the mask driven, the cursor decremented; below 0 the state becomes ALL_ON
(R109; that the cursor then holds 0 is D7, log 27). -/
def Obligations.TickRampDownClearsOneRelay : Prop :=
  ∀ s : State, s.upc = .idle → s.state = .rampDown →
    ∃ t, exec .tickRampDown s = .next t ∧ t.mask = s.mask &&& ~~~(1#8 <<< s.cursor.toNat) ∧
      t.committed = some t.mask ∧ t.trace = s.trace ++ frameEvents Config.board t.mask ∧
      (s.cursor = 0#3 → t.state = .allOn ∧ t.cursor = 0#3) ∧
      (s.cursor ≠ 0#3 → t.state = .rampDown ∧ t.cursor.toNat + 1 = s.cursor.toNat) ∧
      SameInput s t ∧ SameHost s t

/-- ALL_ON and ALL_OFF: all-ones, then all-zeros, driven once each, whatever `mask` and `cursor` were; each is a
single tick (R110, R111). -/
def Obligations.TickAllOnThenAllOff : Prop :=
  (∀ s : State, s.upc = .idle → s.state = .allOn →
    ∃ t, exec .tickAllOn s = .next t ∧ t.mask = 0xFF#8 ∧ t.committed = some 0xFF#8 ∧ t.state = .allOff ∧
      t.trace = s.trace ++ frameEvents Config.board 0xFF#8 ∧ t.cursor = s.cursor ∧ SameInput s t ∧ SameHost s t) ∧
  (∀ s : State, s.upc = .idle → s.state = .allOff →
    ∃ t, exec .tickAllOff s = .next t ∧ t.mask = 0x00#8 ∧ t.committed = some 0x00#8 ∧ t.state = .haltPending ∧
      t.trace = s.trace ++ frameEvents Config.board 0x00#8 ∧ t.cursor = s.cursor ∧ SameInput s t ∧ SameHost s t)

/-- HALT_PENDING drives all-zeros once more and only then is the sequencer HALTED (R112; that it sends its frame is
D23, conflict C1). -/
def Obligations.TickHaltPendingSendsLastFrame : Prop :=
  ∀ s : State, s.upc = .idle → s.state = .haltPending →
    ∃ t, exec .tickHaltPending s = .next t ∧ t.mask = 0x00#8 ∧ t.committed = some 0x00#8 ∧ t.state = .halted ∧
      t.trace = s.trace ++ frameEvents Config.board 0x00#8 ∧ t.cursor = s.cursor ∧ SameInput s t ∧ SameHost s t

/-- HALTED: nothing at all happens (R113). -/
def Obligations.TickHaltedIsInert : Prop :=
  ∀ s : State, s.upc = .idle → s.state = .halted → exec .tickHalted s = .next s

/-- `TICK` is the arm that `state` selects, its argument ignored; it completes from every idle state; an arm that
is not selected is refused (R107, R61; the refusal is log 4). -/
def Obligations.TickRunsTheSelectedArm : Prop :=
  (∀ (a : Byte) (s : State), exec (.tick a) s = exec s.state.arm s) ∧
  (∀ (a : Byte) (s : State), s.upc = .idle →
    ∃ t, exec (.tick a) s = .next t ∧ t.upc = .idle ∧
      t.trace = s.trace ++ (if s.state = .halted then [] else frameEvents Config.board t.mask)) ∧
  (∀ (st : SeqState) (s : State), s.upc = .idle → st ≠ s.state → exec st.arm s = .refused .armNotSelected)

/-- The path of the sequencer: a tick leaves `state` (in a ramp whose cursor has not run out, or in HALTED) or
moves it to the next in order, never back and never over one; and two machines that agree on the sequencer's
registers agree on them after a tick, whatever else differs (R116). -/
def Obligations.TickPathIsFixed : Prop :=
  (∀ (a : Byte) (s t : State), exec (.tick a) s = .next t →
    (t.state = s.state ∧ ((s.state = .rampUp ∧ s.cursor ≠ 7#3) ∨ (s.state = .rampDown ∧ s.cursor ≠ 0#3) ∨
      s.state = .halted)) ∨
    t.state.code.toNat = s.state.code.toNat + 1) ∧
  (∀ (a : Byte) (s u t : State), s.upc = .idle → u.upc = .idle → SameSequencer s u → exec (.tick a) s = .next t →
    ∃ v, exec (.tick a) u = .next v ∧ SameSequencer t v)

/-- The run table: from where `n` ticks leave the sequencer, one more tick sends the table's frame (19 in all) and
goes to where `n + 1` ticks leave it; from tick 20 on nothing happens (R114, R115, derived there; C1, C2, D7). -/
def Obligations.TickFollowsTheRunTable : Prop :=
  ∀ (n : Nat) (a : Byte) (s : State), s.upc = .idle → AfterTicks n s →
    ∃ t, exec (.tick a) s = .next t ∧ AfterTicks (n + 1) t ∧ t.upc = .idle ∧
      (∀ m, drivenMasks[n]? = some m →
        t.committed = some m ∧ t.lat = m ∧ t.trace = s.trace ++ frameEvents Config.board m) ∧
      (19 ≤ n → t = s)

/-- However the host interleaves `STATUS` calls, the run from the sequencer's reset values never stops, and after
all the calls the sequencer is where that many ticks leave it: HALTED from the nineteenth on (R183, R148, R152). -/
def Obligations.RunReachesHaltedUnderAnyInterleaving : Prop :=
  ∀ s : State, s.upc = .idle → s.grain = .operation → BenchEmpty s → AfterTicks 0 s → OnlyTickOrStatus s.moves →
    ∃ t : State, Host.Core.run core s.moves.length s = .next t ∧ t.moves = [] ∧ t.upc = .idle ∧
      AfterTicks (tickCount s.moves) t ∧ (19 ≤ tickCount s.moves → t.state = .halted ∧ t.mask = 0x00#8)

/-! ### Invariants -/

/-- The sequencer invariant of R31 item 2 is kept by every step that is not one of the bench, in both views, also in
the middle of a frame and by a start of the process. -/
def Obligations.SequencerInvariantKept : Prop :=
  ∀ s t : State, SequencerInv s → step s = .next t → SequencerInv t

/-- Every step, in both views, whatever comes from outside, keeps it: a load pulse is open only while `I_LOAD` is low,
and of every input line it is known that it took some level in it (R134; the field that notes the levels is the
model's, log 32). -/
def Obligations.PulseLevelsStayKnown : Prop :=
  ∀ s t : State, PulseKnown s → step s = .next t → PulseKnown t

/-- The output invariant is kept by every step that is not one of the bench, in both views: idle, the relays show
the committed mask; in a frame, lines and shift stage are as far as `upc` says and the latches still hold the
previous mask (R16, R42, R88, R132; the instant of `committed` is D10, log 26). -/
def Obligations.OutputInvariantKept : Prop :=
  ∀ s t : State, OutputInv s → step s = .next t → OutputInv t

/-- R31 item 3: between two ticks the committed mask is `mask` as soon as a tick has run. Every step that is not one of
the bench keeps this, in both views (the instant of `committed` is D10, log 26). -/
def Obligations.CommittedInvariantKept : Prop :=
  ∀ s t : State, CommittedInv s → step s = .next t → CommittedInv t

/-- R31 item 4: `state` never decreases, in the order of the codes (D2), in both views and whatever the rest of the
machine holds, by any step but one of the bench and a start of the process, which is a reset (R161; log 20). -/
def Obligations.StateNeverDecreases : Prop :=
  ∀ s t : State, BenchEmpty s → NoStartNext s → step s = .next t → s.state.code.toNat ≤ t.state.code.toNat

/-- Ownership (R30, R149, R151), in both views: with nothing on the bench, only a `TICK` of the host leads to a write
of the sequencer's registers or of the output register, only a `STATUS` to one of the input register; the host's reads
write none of them; a running `DRIVE` leaves the input register, and a running `SAMPLE` the other two; and no step puts
a code on the bench (the bench is the model's, log 2). -/
def Obligations.EveryRegisterHasOneOwner : Prop :=
  (∀ (s t : State) (call : Call) (rest : List Move), s.upc = .idle → BenchEmpty s → s.moves = .host call :: rest →
    step s = .next t →
    (call ≠ .tick → SameSequencer s t ∧ SameOutput s t) ∧ (call ≠ .status → SameInput s t)) ∧
  (∀ (s t : State) (m : Byte) (k : Nat) (byTick : Bool), s.upc = .driving m k byTick → step s = .next t →
    SameInput s t ∧ t.mask = s.mask) ∧
  (∀ (s t : State) (k : Nat) (forStatus : Bool), s.upc = .sampling k forStatus → step s = .next t →
    SameSequencer s t ∧ SameOutput s t) ∧
  (∀ s t : State, BenchEmpty s → step s = .next t → BenchEmpty t)

/-- The invariants hold at reset. For `PulseKnown` that rests on the model's choice that no load pulse is open then
(`pulse` none at reset: log 32, DESIGN CHOICE). -/
def Obligations.InvariantsHoldAtReset : Prop :=
  SequencerInv State.reset ∧ CommittedInv State.reset ∧ OutputInv State.reset ∧ PulseKnown State.reset ∧
    RunningInv State.reset

/-- No partly shifted pattern is ever shown: in the event-by-event view the latches of a frame in progress keep the
previous pattern, and so do the relays (at the frame's first event, `W(O_OE,OE_ON)`, if a mask has been committed), but
for the one event that raises the latch, which shows `m` whole (R42). -/
def Obligations.RelaysChangeOnlyAtTheLatch : Prop :=
  ∀ (s t : State) (m : Byte) (k : Nat) (byTick : Bool), OutputInv s → s.upc = .driving m k byTick →
    step s = .next t →
    (k ≠ latchStep Config.board → t.lat = s.lat ∧
      (1 ≤ k ∨ s.committed ≠ none → relays Config.board t = relays Config.board s)) ∧
    (k = latchStep Config.board → t.lat = m ∧ relays Config.board t = m)

/-- Once `O_OE` is at its active level, no step but one of the bench takes it away, also in HALTED; and every `DRIVE`
puts it there (R90, D18). That a start of the process leaves it there too is the model's choice (log 20, DESIGN CHOICE):
R164 has a restart leave the lines where they are, but R25 and R32 leave the level of `O_OE` after reset unspecified. -/
def Obligations.OutputsStayEnabled : Prop :=
  (∀ s t : State, BenchEmpty s → s.lvl.oOe = Config.board.oeOn → step s = .next t →
    t.lvl.oOe = Config.board.oeOn) ∧
  (∀ (m : Byte) (s : State), s.upc = .idle →
    ∃ t, exec (.drive m) s = .next t ∧ t.lvl.oOe = Config.board.oeOn)

/-- A running operation is never stopped: with `upc` inside its table, and `I_LOAD` high again after the load pulse
of a `SAMPLE`, every step of a running operation answers a next state, and every step whatever keeps this
(R20, R141, R183). -/
def Obligations.RunningOperationNeverStops : Prop :=
  (∀ s : State, RunningInv s → s.upc ≠ .idle → ∃ t, step s = .next t) ∧
  (∀ s t : State, RunningInv s → step s = .next t → RunningInv t)

/-- The micro-step index counts through a `DRIVE` (0 to 27, and further by 8 with a set-up wait and by 4 with a
read-back) and 0 to 42 through a `SAMPLE`, one for each micro-operation, never branching, skipping or wrapping, and
then returns to idle; each step of it emits one event (R20, R76, R91, R93; the index is D1). -/
def Obligations.MicroStepsCountUp : Prop :=
  (∀ (s : State) (m : Byte) (k : Nat) (byTick : Bool), s.upc = .driving m k byTick → k < driveLength Config.board →
    ∃ t e, step s = .next t ∧ t.trace = s.trace ++ [e] ∧
      t.upc = if k + 1 = driveLength Config.board then .idle else .driving m (k + 1) byTick) ∧
  (∀ (s : State) (k : Nat) (forStatus : Bool), s.upc = .sampling k forStatus → RunningInv s →
    ∃ t e, step s = .next t ∧ t.trace = s.trace ++ [e] ∧
      t.upc = if k = 42 then .idle else .sampling (k + 1) forStatus) ∧
  (∀ c : Params, driveLength c = 28 + (if c.tSetup = 0 then 0 else 8) + (if c.diagReadback then 4 else 0))

/-- After HALTED, until the process starts again, no step but one of the bench writes a line of the output register,
and the sequencer, the committed mask and the relays stay (R113, R158, S5). -/
def Obligations.HaltedWritesNoOutputLine : Prop :=
  ∀ s t : State, BenchEmpty s → NoStartNext s → s.state = .halted → (∀ m k b, s.upc ≠ .driving m k b) →
    step s = .next t →
    SameSequencer s t ∧ SameOutput s t ∧ (∀ m k b, t.upc ≠ .driving m k b) ∧
    ∃ new, t.trace = s.trace ++ new ∧ ∀ e ∈ new, Event.onOutputRegister e = false

/-! ### The two views -/

/-- A `DRIVE` stepped event by event is the whole operation: as many steps as the frame of this board has events, from
its first micro-step, give exactly what `exec` gives (R20, R89; the two views are D1). -/
def Obligations.SteppedDriveIsDrive : Prop :=
  ∀ (m : Byte) (s : State), s.upc = .idle →
    Host.Core.run core (driveLength Config.board) (beginDrive m s) = exec (.drive m) s

/-- A `SAMPLE` stepped event by event is the whole operation, in 43 steps, and so is a `STATUS` (R20, R99, R124; D1). -/
def Obligations.SteppedSampleIsSample : Prop :=
  (∀ (a : Byte) (s : State), s.upc = .idle → Host.Core.run core 43 (beginSample false s) = exec (.sample a) s) ∧
  (∀ s : State, s.upc = .idle → Host.Core.run core 43 (beginSample true s) = status Config.board s)

/-- A `TICK` stepped event by event is the whole operation: one step for each event of its frame, with the update of
`cursor` and `state` after the last (R107, R20; D1). -/
def Obligations.SteppedTickIsTick : Prop :=
  ∀ (a : Byte) (s : State), s.upc = .idle → s.state ≠ .halted →
    Host.Core.run core (driveLength Config.board) (beginTick s) = exec (.tick a) s

/-- Under any parameters `bitidx` is 7 minus the slot number in each micro-step of an output slot (three, or four with
a set-up wait) and in each of the five of an input slot (R18, R89, R99, R93). That it is none outside the slots is the
model's choice: the spec calls it dead there (log 7, DESIGN CHOICE). -/
def Obligations.BitIndexCountsDown : Prop :=
  ∀ (c : Params) (s : State),
    (∀ m j r b, j < 8 → r < slotLength c → bitidx c { s with upc := .driving m (2 + slotLength c * j + r) b } =
      some (BitVec.ofNat 3 (7 - j))) ∧
    (∀ j r b, j < 8 → r < 5 → bitidx c { s with upc := .sampling (3 + 5 * j + r) b } =
      some (BitVec.ofNat 3 (7 - j))) ∧
    (∀ m k b, k < 2 ∨ latchStep c ≤ k → bitidx c { s with upc := .driving m k b } = none) ∧
    (∀ k b, k < 3 ∨ 43 ≤ k → bitidx c { s with upc := .sampling k b } = none) ∧
    bitidx c { s with upc := .idle } = none

/-! ### The host (60_exceptions.md) and reset (70_reset_and_hazards.md) -/

/-- No operation begins while another runs (R146; the refusal is D25). -/
def Obligations.NothingBeginsWhileRunning : Prop :=
  ∀ s : State, s.upc ≠ .idle →
    (∀ a, exec (.tick a) s = .refused .operationRunning) ∧
    (∀ st : SeqState, exec st.arm s = .refused .operationRunning) ∧
    (∀ a, exec (.sample a) s = .refused .operationRunning) ∧
    (∀ m, exec (.drive m) s = .refused .operationRunning) ∧
    (∀ r, exec (.report r) s = .refused .operationRunning)

/-- `TICK` and `STATUS` commute: in either order of one host iteration the sequencer, the output register and the
relays end the same, and, with input lines that hold, so does what is returned (R124, R152, D19). -/
def Obligations.TickAndStatusCommute : Prop :=
  ∀ s : State, s.upc = .idle → s.grain = .operation → BenchEmpty s →
    ∃ t u : State, Host.Core.run core 2 { s with moves := hostIteration false } = .next t ∧
      Host.Core.run core 2 { s with moves := hostIteration true } = .next u ∧
      SameSequencer t u ∧ SameOutput t u ∧ relays Config.board t = relays Config.board u ∧
      (s.upcoming = [] → PulseSteady s s.inputs → t.results = u.results)

/-- The host's reads of an idle core (`state`, `halted`, `committed` and, with `DIAG_READBACK`, `linelevels`) change
nothing but what has been returned; before the first `DRIVE` there is no committed mask to read, and without
`DIAG_READBACK` no `linelevels`, and the read is refused (R148, R149, R151, R23, R16; the refusals are D9 and log 19,
log 21). -/
def Obligations.HostReadsOfIdleCore : Prop :=
  (∀ (s : State) (rest : List Move), s.upc = .idle → BenchEmpty s → s.moves = .host .readState :: rest →
    step s = .next { s with moves := rest, results := s.results ++ [.stepName s.state] }) ∧
  (∀ (s : State) (rest : List Move), s.upc = .idle → BenchEmpty s → s.moves = .host .readHalted :: rest →
    step s = .next { s with moves := rest, results := s.results ++ [.halted (decide (s.state = .halted))] }) ∧
  (∀ (s : State) (rest : List Move) (m : Byte), s.upc = .idle → BenchEmpty s →
    s.moves = .host .readCommitted :: rest → s.committed = some m →
    step s = .next { s with moves := rest, results := s.results ++ [.committed m] }) ∧
  (∀ (s : State) (rest : List Move), s.upc = .idle → BenchEmpty s → s.moves = .host .readCommitted :: rest →
    s.committed = none → step s = .refused .committedNone) ∧
  (∀ (c : Params) (s : State) (rest : List Move), s.upc = .idle → BenchEmpty s →
    s.moves = .host .readLineLevels :: rest → c.diagReadback = true →
    advance c s = .next { s with
      moves := rest, results := s.results ++ [.lineLevels s.lvl.oData s.lvl.oClk s.lvl.oLatch s.lvl.oOe] }) ∧
  (∀ (c : Params) (s : State) (rest : List Move), s.upc = .idle → BenchEmpty s →
    s.moves = .host .readLineLevels :: rest → c.diagReadback = false → advance c s = .refused .noReadback)

/-- The values reset gives the registers, and that it emits no event (R161, R162). -/
def Obligations.ResetValues : Prop :=
  State.reset.state = .rampUp ∧ State.reset.cursor = 0#3 ∧ State.reset.mask = 0x00#8 ∧
    State.reset.upc = .idle ∧ State.reset.committed = none ∧ State.reset.trace = []

/-- A start of the process gives the core's registers their reset values again, from every sequencer state, HALTED too,
emits no event, and leaves the lines and the devices where they are (R161, R154, R164, derived there; log 20). -/
def Obligations.RestartKeepsLinesAndDevices : Prop :=
  ∀ (s : State) (rest : List Move), s.upc = .idle → BenchEmpty s → s.moves = .processStart :: rest →
    ∃ t, step s = .next t ∧ t.state = .rampUp ∧ t.cursor = 0#3 ∧ t.mask = 0x00#8 ∧ t.committed = none ∧
      t.upc = .idle ∧ t.trace = s.trace ∧ t.lvl = s.lvl ∧ t.sh = s.sh ∧ t.lat = s.lat ∧ t.p = s.p

/-- Under any parameters no two lines are at one pin, and at the pin of a line stands that line's level (R47, D20). -/
def Obligations.PinsDoNotAlias : Prop :=
  (∀ (c : Params) (a b : Line), c.pinOf a = c.pinOf b → a = b) ∧
  (∀ (c : Params) (s : State) (l : Line), pinLevel c s (c.pinOf l) = some (s.level l))
end

