-- ==== Sys2Proof/Laws/State.lean ====
section
/-! SUPPORT. One lemma per field per update, so that no later proof unfolds a record update; and what a note and the
update of a tick leave alone. -/

namespace Sys2Proof.Machine

variable (s : State)

/-! ### `atInstant` -/

@[simp] theorem atInstant_mask : (atInstant s).mask = s.mask := rfl
@[simp] theorem atInstant_cursor : (atInstant s).cursor = s.cursor := rfl
@[simp] theorem atInstant_state : (atInstant s).state = s.state := rfl
@[simp] theorem atInstant_committed : (atInstant s).committed = s.committed := rfl
@[simp] theorem atInstant_acc : (atInstant s).acc = s.acc := rfl
@[simp] theorem atInstant_upc : (atInstant s).upc = s.upc := rfl
@[simp] theorem atInstant_lvl : (atInstant s).lvl = s.lvl := rfl
@[simp] theorem atInstant_sh : (atInstant s).sh = s.sh := rfl
@[simp] theorem atInstant_lat : (atInstant s).lat = s.lat := rfl
@[simp] theorem atInstant_p : (atInstant s).p = s.p := rfl
@[simp] theorem atInstant_pulse : (atInstant s).pulse = s.pulse.map fun q => q.see (passed s) := rfl
@[simp] theorem atInstant_inputs : (atInstant s).inputs = (passed s).getLastD s.inputs := rfl
@[simp] theorem atInstant_upcoming : (atInstant s).upcoming = s.upcoming.tail := rfl
@[simp] theorem atInstant_moves : (atInstant s).moves = s.moves := rfl
@[simp] theorem atInstant_placed : (atInstant s).placed = s.placed := rfl
@[simp] theorem atInstant_trace : (atInstant s).trace = s.trace := rfl
@[simp] theorem atInstant_results : (atInstant s).results = s.results := rfl
@[simp] theorem atInstant_instant : (atInstant s).instant = s.instant := rfl
@[simp] theorem atInstant_grain : (atInstant s).grain = s.grain := rfl

/-! ### `emit` -/

@[simp] theorem emit_mask (e : Event) : (emit e s).mask = s.mask := rfl
@[simp] theorem emit_cursor (e : Event) : (emit e s).cursor = s.cursor := rfl
@[simp] theorem emit_state (e : Event) : (emit e s).state = s.state := rfl
@[simp] theorem emit_committed (e : Event) : (emit e s).committed = s.committed := rfl
@[simp] theorem emit_acc (e : Event) : (emit e s).acc = s.acc := rfl
@[simp] theorem emit_upc (e : Event) : (emit e s).upc = s.upc := rfl
@[simp] theorem emit_lvl (e : Event) : (emit e s).lvl = s.lvl := rfl
@[simp] theorem emit_sh (e : Event) : (emit e s).sh = s.sh := rfl
@[simp] theorem emit_lat (e : Event) : (emit e s).lat = s.lat := rfl
@[simp] theorem emit_p (e : Event) : (emit e s).p = s.p := rfl
@[simp] theorem emit_pulse (e : Event) : (emit e s).pulse = s.pulse := rfl
@[simp] theorem emit_inputs (e : Event) : (emit e s).inputs = s.inputs := rfl
@[simp] theorem emit_upcoming (e : Event) : (emit e s).upcoming = s.upcoming := rfl
@[simp] theorem emit_moves (e : Event) : (emit e s).moves = s.moves := rfl
@[simp] theorem emit_placed (e : Event) : (emit e s).placed = s.placed := rfl
@[simp] theorem emit_trace (e : Event) : (emit e s).trace = s.trace ++ [e] := rfl
@[simp] theorem emit_results (e : Event) : (emit e s).results = s.results := rfl
@[simp] theorem emit_instant (e : Event) : (emit e s).instant = s.instant + 1 := rfl
@[simp] theorem emit_grain (e : Event) : (emit e s).grain = s.grain := rfl

/-! ### `lineWrite` -/

@[simp] theorem lineWrite_mask (c : Params) (l : Line) (v : Level) : (lineWrite c l v s).mask = s.mask := rfl
@[simp] theorem lineWrite_cursor (c : Params) (l : Line) (v : Level) : (lineWrite c l v s).cursor = s.cursor := rfl
@[simp] theorem lineWrite_state (c : Params) (l : Line) (v : Level) : (lineWrite c l v s).state = s.state := rfl
@[simp] theorem lineWrite_committed (c : Params) (l : Line) (v : Level) : (lineWrite c l v s).committed =
    s.committed := rfl
@[simp] theorem lineWrite_acc (c : Params) (l : Line) (v : Level) : (lineWrite c l v s).acc = s.acc := rfl
@[simp] theorem lineWrite_upc (c : Params) (l : Line) (v : Level) : (lineWrite c l v s).upc = s.upc := rfl
@[simp] theorem lineWrite_lvl (c : Params) (l : Line) (v : Level) : (lineWrite c l v s).lvl =
    setLevel s.lvl l v := rfl
@[simp] theorem lineWrite_sh (c : Params) (l : Line) (v : Level) : (lineWrite c l v s).sh =
    if rising s l v .oClk then shiftOut s.sh s.lvl.oData else s.sh := rfl
@[simp] theorem lineWrite_lat (c : Params) (l : Line) (v : Level) : (lineWrite c l v s).lat =
    if rising s l v .oLatch then s.sh else s.lat := rfl
@[simp] theorem lineWrite_p (c : Params) (l : Line) (v : Level) : (lineWrite c l v s).p =
    if rising s l v .iLoad then captured c s
    else if rising s l v .iClk then shiftIn s.p (c.fillBit s.instant) else s.p := rfl
@[simp] theorem lineWrite_pulse (c : Params) (l : Line) (v : Level) : (lineWrite c l v s).pulse =
    nextPulse l v s := rfl
@[simp] theorem lineWrite_inputs (c : Params) (l : Line) (v : Level) : (lineWrite c l v s).inputs = s.inputs := rfl
@[simp] theorem lineWrite_upcoming (c : Params) (l : Line) (v : Level) : (lineWrite c l v s).upcoming =
    s.upcoming := rfl
@[simp] theorem lineWrite_moves (c : Params) (l : Line) (v : Level) : (lineWrite c l v s).moves = s.moves := rfl
@[simp] theorem lineWrite_placed (c : Params) (l : Line) (v : Level) : (lineWrite c l v s).placed = s.placed := rfl
@[simp] theorem lineWrite_trace (c : Params) (l : Line) (v : Level) : (lineWrite c l v s).trace = s.trace := rfl
@[simp] theorem lineWrite_results (c : Params) (l : Line) (v : Level) : (lineWrite c l v s).results = s.results := rfl
@[simp] theorem lineWrite_instant (c : Params) (l : Line) (v : Level) : (lineWrite c l v s).instant = s.instant := rfl
@[simp] theorem lineWrite_grain (c : Params) (l : Line) (v : Level) : (lineWrite c l v s).grain = s.grain := rfl

/-! ### `giveBack` -/

@[simp] theorem giveBack_mask (r : Result) : (giveBack r s).mask = s.mask := rfl
@[simp] theorem giveBack_cursor (r : Result) : (giveBack r s).cursor = s.cursor := rfl
@[simp] theorem giveBack_state (r : Result) : (giveBack r s).state = s.state := rfl
@[simp] theorem giveBack_committed (r : Result) : (giveBack r s).committed = s.committed := rfl
@[simp] theorem giveBack_acc (r : Result) : (giveBack r s).acc = s.acc := rfl
@[simp] theorem giveBack_upc (r : Result) : (giveBack r s).upc = s.upc := rfl
@[simp] theorem giveBack_lvl (r : Result) : (giveBack r s).lvl = s.lvl := rfl
@[simp] theorem giveBack_sh (r : Result) : (giveBack r s).sh = s.sh := rfl
@[simp] theorem giveBack_lat (r : Result) : (giveBack r s).lat = s.lat := rfl
@[simp] theorem giveBack_p (r : Result) : (giveBack r s).p = s.p := rfl
@[simp] theorem giveBack_pulse (r : Result) : (giveBack r s).pulse = s.pulse := rfl
@[simp] theorem giveBack_inputs (r : Result) : (giveBack r s).inputs = s.inputs := rfl
@[simp] theorem giveBack_upcoming (r : Result) : (giveBack r s).upcoming = s.upcoming := rfl
@[simp] theorem giveBack_moves (r : Result) : (giveBack r s).moves = s.moves := rfl
@[simp] theorem giveBack_placed (r : Result) : (giveBack r s).placed = s.placed := rfl
@[simp] theorem giveBack_trace (r : Result) : (giveBack r s).trace = s.trace := rfl
@[simp] theorem giveBack_results (r : Result) : (giveBack r s).results = s.results ++ [r] := rfl
@[simp] theorem giveBack_instant (r : Result) : (giveBack r s).instant = s.instant := rfl
@[simp] theorem giveBack_grain (r : Result) : (giveBack r s).grain = s.grain := rfl

/-! ### `finishDrive` -/

@[simp] theorem finishDrive_mask (c : Params) : (finishDrive c s).mask = s.mask := rfl
@[simp] theorem finishDrive_cursor (c : Params) : (finishDrive c s).cursor = s.cursor := rfl
@[simp] theorem finishDrive_state (c : Params) : (finishDrive c s).state = s.state := rfl
@[simp] theorem finishDrive_committed (c : Params) : (finishDrive c s).committed = s.committed := rfl
@[simp] theorem finishDrive_acc (c : Params) : (finishDrive c s).acc = s.acc := rfl
@[simp] theorem finishDrive_upc (c : Params) : (finishDrive c s).upc = s.upc := rfl
@[simp] theorem finishDrive_lvl (c : Params) : (finishDrive c s).lvl = s.lvl := rfl
@[simp] theorem finishDrive_sh (c : Params) : (finishDrive c s).sh = s.sh := rfl
@[simp] theorem finishDrive_lat (c : Params) : (finishDrive c s).lat = s.lat := rfl
@[simp] theorem finishDrive_p (c : Params) : (finishDrive c s).p = s.p := rfl
@[simp] theorem finishDrive_pulse (c : Params) : (finishDrive c s).pulse = s.pulse := rfl
@[simp] theorem finishDrive_inputs (c : Params) : (finishDrive c s).inputs = s.inputs := rfl
@[simp] theorem finishDrive_upcoming (c : Params) : (finishDrive c s).upcoming = s.upcoming := rfl
@[simp] theorem finishDrive_moves (c : Params) : (finishDrive c s).moves = s.moves := rfl
@[simp] theorem finishDrive_placed (c : Params) : (finishDrive c s).placed = s.placed := rfl
@[simp] theorem finishDrive_trace (c : Params) : (finishDrive c s).trace = s.trace := rfl
@[simp] theorem finishDrive_results (c : Params) : (finishDrive c s).results =
    if c.diagReadback then s.results ++ [lineLevels s] else s.results := rfl
@[simp] theorem finishDrive_instant (c : Params) : (finishDrive c s).instant = s.instant := rfl
@[simp] theorem finishDrive_grain (c : Params) : (finishDrive c s).grain = s.grain := rfl

/-! ### `finishSample` -/

@[simp] theorem finishSample_mask (b : Bool) : (finishSample b s).mask = s.mask := rfl
@[simp] theorem finishSample_cursor (b : Bool) : (finishSample b s).cursor = s.cursor := rfl
@[simp] theorem finishSample_state (b : Bool) : (finishSample b s).state = s.state := rfl
@[simp] theorem finishSample_committed (b : Bool) : (finishSample b s).committed = s.committed := rfl
@[simp] theorem finishSample_acc (b : Bool) : (finishSample b s).acc = s.acc := rfl
@[simp] theorem finishSample_upc (b : Bool) : (finishSample b s).upc = s.upc := rfl
@[simp] theorem finishSample_lvl (b : Bool) : (finishSample b s).lvl = s.lvl := rfl
@[simp] theorem finishSample_sh (b : Bool) : (finishSample b s).sh = s.sh := rfl
@[simp] theorem finishSample_lat (b : Bool) : (finishSample b s).lat = s.lat := rfl
@[simp] theorem finishSample_p (b : Bool) : (finishSample b s).p = s.p := rfl
@[simp] theorem finishSample_pulse (b : Bool) : (finishSample b s).pulse = s.pulse := rfl
@[simp] theorem finishSample_inputs (b : Bool) : (finishSample b s).inputs = s.inputs := rfl
@[simp] theorem finishSample_upcoming (b : Bool) : (finishSample b s).upcoming = s.upcoming := rfl
@[simp] theorem finishSample_moves (b : Bool) : (finishSample b s).moves = s.moves := rfl
@[simp] theorem finishSample_placed (b : Bool) : (finishSample b s).placed = s.placed := rfl
@[simp] theorem finishSample_trace (b : Bool) : (finishSample b s).trace = s.trace := rfl
@[simp] theorem finishSample_results (b : Bool) : (finishSample b s).results =
    s.results ++ [if b then reportOf s.acc else .snapshot s.acc] := rfl
@[simp] theorem finishSample_instant (b : Bool) : (finishSample b s).instant = s.instant := rfl
@[simp] theorem finishSample_grain (b : Bool) : (finishSample b s).grain = s.grain := rfl

/-! ### `rampUpTail` -/

@[simp] theorem rampUpTail_mask : (rampUpTail s).mask = s.mask := rfl
@[simp] theorem rampUpTail_cursor : (rampUpTail s).cursor =
    if s.cursor.toNat + 1 = 8 then 7#3 else s.cursor + 1#3 := rfl
@[simp] theorem rampUpTail_state : (rampUpTail s).state = if s.cursor.toNat + 1 = 8 then .rampDown else s.state := rfl
@[simp] theorem rampUpTail_committed : (rampUpTail s).committed = s.committed := rfl
@[simp] theorem rampUpTail_acc : (rampUpTail s).acc = s.acc := rfl
@[simp] theorem rampUpTail_upc : (rampUpTail s).upc = s.upc := rfl
@[simp] theorem rampUpTail_lvl : (rampUpTail s).lvl = s.lvl := rfl
@[simp] theorem rampUpTail_sh : (rampUpTail s).sh = s.sh := rfl
@[simp] theorem rampUpTail_lat : (rampUpTail s).lat = s.lat := rfl
@[simp] theorem rampUpTail_p : (rampUpTail s).p = s.p := rfl
@[simp] theorem rampUpTail_pulse : (rampUpTail s).pulse = s.pulse := rfl
@[simp] theorem rampUpTail_inputs : (rampUpTail s).inputs = s.inputs := rfl
@[simp] theorem rampUpTail_upcoming : (rampUpTail s).upcoming = s.upcoming := rfl
@[simp] theorem rampUpTail_moves : (rampUpTail s).moves = s.moves := rfl
@[simp] theorem rampUpTail_placed : (rampUpTail s).placed = s.placed := rfl
@[simp] theorem rampUpTail_trace : (rampUpTail s).trace = s.trace := rfl
@[simp] theorem rampUpTail_results : (rampUpTail s).results = s.results := rfl
@[simp] theorem rampUpTail_instant : (rampUpTail s).instant = s.instant := rfl
@[simp] theorem rampUpTail_grain : (rampUpTail s).grain = s.grain := rfl

/-! ### `rampDownTail` -/

@[simp] theorem rampDownTail_mask : (rampDownTail s).mask = s.mask := rfl
@[simp] theorem rampDownTail_cursor : (rampDownTail s).cursor = if s.cursor = 0#3 then 0#3 else s.cursor - 1#3 := rfl
@[simp] theorem rampDownTail_state : (rampDownTail s).state = if s.cursor = 0#3 then .allOn else s.state := rfl
@[simp] theorem rampDownTail_committed : (rampDownTail s).committed = s.committed := rfl
@[simp] theorem rampDownTail_acc : (rampDownTail s).acc = s.acc := rfl
@[simp] theorem rampDownTail_upc : (rampDownTail s).upc = s.upc := rfl
@[simp] theorem rampDownTail_lvl : (rampDownTail s).lvl = s.lvl := rfl
@[simp] theorem rampDownTail_sh : (rampDownTail s).sh = s.sh := rfl
@[simp] theorem rampDownTail_lat : (rampDownTail s).lat = s.lat := rfl
@[simp] theorem rampDownTail_p : (rampDownTail s).p = s.p := rfl
@[simp] theorem rampDownTail_pulse : (rampDownTail s).pulse = s.pulse := rfl
@[simp] theorem rampDownTail_inputs : (rampDownTail s).inputs = s.inputs := rfl
@[simp] theorem rampDownTail_upcoming : (rampDownTail s).upcoming = s.upcoming := rfl
@[simp] theorem rampDownTail_moves : (rampDownTail s).moves = s.moves := rfl
@[simp] theorem rampDownTail_placed : (rampDownTail s).placed = s.placed := rfl
@[simp] theorem rampDownTail_trace : (rampDownTail s).trace = s.trace := rfl
@[simp] theorem rampDownTail_results : (rampDownTail s).results = s.results := rfl
@[simp] theorem rampDownTail_instant : (rampDownTail s).instant = s.instant := rfl
@[simp] theorem rampDownTail_grain : (rampDownTail s).grain = s.grain := rfl

/-! ### `beginTick` -/

@[simp] theorem beginTick_mask : (beginTick s).mask = tickMask s := rfl
@[simp] theorem beginTick_cursor : (beginTick s).cursor = s.cursor := rfl
@[simp] theorem beginTick_state : (beginTick s).state = s.state := rfl
@[simp] theorem beginTick_committed : (beginTick s).committed = s.committed := rfl
@[simp] theorem beginTick_acc : (beginTick s).acc = s.acc := rfl
@[simp] theorem beginTick_upc : (beginTick s).upc =
    if s.state = .halted then s.upc else .driving (tickMask s) 0 true := rfl
@[simp] theorem beginTick_lvl : (beginTick s).lvl = s.lvl := rfl
@[simp] theorem beginTick_sh : (beginTick s).sh = s.sh := rfl
@[simp] theorem beginTick_lat : (beginTick s).lat = s.lat := rfl
@[simp] theorem beginTick_p : (beginTick s).p = s.p := rfl
@[simp] theorem beginTick_pulse : (beginTick s).pulse = s.pulse := rfl
@[simp] theorem beginTick_inputs : (beginTick s).inputs = s.inputs := rfl
@[simp] theorem beginTick_upcoming : (beginTick s).upcoming = s.upcoming := rfl
@[simp] theorem beginTick_moves : (beginTick s).moves = s.moves := rfl
@[simp] theorem beginTick_placed : (beginTick s).placed = s.placed := rfl
@[simp] theorem beginTick_trace : (beginTick s).trace = s.trace := rfl
@[simp] theorem beginTick_results : (beginTick s).results = s.results := rfl
@[simp] theorem beginTick_instant : (beginTick s).instant = s.instant := rfl
@[simp] theorem beginTick_grain : (beginTick s).grain = s.grain := rfl

/-! ### `beginDrive` -/

@[simp] theorem beginDrive_mask (m : Byte) : (beginDrive m s).mask = s.mask := rfl
@[simp] theorem beginDrive_cursor (m : Byte) : (beginDrive m s).cursor = s.cursor := rfl
@[simp] theorem beginDrive_state (m : Byte) : (beginDrive m s).state = s.state := rfl
@[simp] theorem beginDrive_committed (m : Byte) : (beginDrive m s).committed = s.committed := rfl
@[simp] theorem beginDrive_acc (m : Byte) : (beginDrive m s).acc = s.acc := rfl
@[simp] theorem beginDrive_upc (m : Byte) : (beginDrive m s).upc = .driving m 0 false := rfl
@[simp] theorem beginDrive_lvl (m : Byte) : (beginDrive m s).lvl = s.lvl := rfl
@[simp] theorem beginDrive_sh (m : Byte) : (beginDrive m s).sh = s.sh := rfl
@[simp] theorem beginDrive_lat (m : Byte) : (beginDrive m s).lat = s.lat := rfl
@[simp] theorem beginDrive_p (m : Byte) : (beginDrive m s).p = s.p := rfl
@[simp] theorem beginDrive_pulse (m : Byte) : (beginDrive m s).pulse = s.pulse := rfl
@[simp] theorem beginDrive_inputs (m : Byte) : (beginDrive m s).inputs = s.inputs := rfl
@[simp] theorem beginDrive_upcoming (m : Byte) : (beginDrive m s).upcoming = s.upcoming := rfl
@[simp] theorem beginDrive_moves (m : Byte) : (beginDrive m s).moves = s.moves := rfl
@[simp] theorem beginDrive_placed (m : Byte) : (beginDrive m s).placed = s.placed := rfl
@[simp] theorem beginDrive_trace (m : Byte) : (beginDrive m s).trace = s.trace := rfl
@[simp] theorem beginDrive_results (m : Byte) : (beginDrive m s).results = s.results := rfl
@[simp] theorem beginDrive_instant (m : Byte) : (beginDrive m s).instant = s.instant := rfl
@[simp] theorem beginDrive_grain (m : Byte) : (beginDrive m s).grain = s.grain := rfl

/-! ### `beginSample` -/

@[simp] theorem beginSample_mask (b : Bool) : (beginSample b s).mask = s.mask := rfl
@[simp] theorem beginSample_cursor (b : Bool) : (beginSample b s).cursor = s.cursor := rfl
@[simp] theorem beginSample_state (b : Bool) : (beginSample b s).state = s.state := rfl
@[simp] theorem beginSample_committed (b : Bool) : (beginSample b s).committed = s.committed := rfl
@[simp] theorem beginSample_acc (b : Bool) : (beginSample b s).acc = s.acc := rfl
@[simp] theorem beginSample_upc (b : Bool) : (beginSample b s).upc = .sampling 0 b := rfl
@[simp] theorem beginSample_lvl (b : Bool) : (beginSample b s).lvl = s.lvl := rfl
@[simp] theorem beginSample_sh (b : Bool) : (beginSample b s).sh = s.sh := rfl
@[simp] theorem beginSample_lat (b : Bool) : (beginSample b s).lat = s.lat := rfl
@[simp] theorem beginSample_p (b : Bool) : (beginSample b s).p = s.p := rfl
@[simp] theorem beginSample_pulse (b : Bool) : (beginSample b s).pulse = s.pulse := rfl
@[simp] theorem beginSample_inputs (b : Bool) : (beginSample b s).inputs = s.inputs := rfl
@[simp] theorem beginSample_upcoming (b : Bool) : (beginSample b s).upcoming = s.upcoming := rfl
@[simp] theorem beginSample_moves (b : Bool) : (beginSample b s).moves = s.moves := rfl
@[simp] theorem beginSample_placed (b : Bool) : (beginSample b s).placed = s.placed := rfl
@[simp] theorem beginSample_trace (b : Bool) : (beginSample b s).trace = s.trace := rfl
@[simp] theorem beginSample_results (b : Bool) : (beginSample b s).results = s.results := rfl
@[simp] theorem beginSample_instant (b : Bool) : (beginSample b s).instant = s.instant := rfl
@[simp] theorem beginSample_grain (b : Bool) : (beginSample b s).grain = s.grain := rfl

/-! ### `restart` -/

@[simp] theorem restart_mask : (restart s).mask = 0x00#8 := rfl
@[simp] theorem restart_cursor : (restart s).cursor = 0#3 := rfl
@[simp] theorem restart_state : (restart s).state = .rampUp := rfl
@[simp] theorem restart_committed : (restart s).committed = none := rfl
@[simp] theorem restart_acc : (restart s).acc = 0x00#8 := rfl
@[simp] theorem restart_upc : (restart s).upc = .idle := rfl
@[simp] theorem restart_lvl : (restart s).lvl = s.lvl := rfl
@[simp] theorem restart_sh : (restart s).sh = s.sh := rfl
@[simp] theorem restart_lat : (restart s).lat = s.lat := rfl
@[simp] theorem restart_p : (restart s).p = s.p := rfl
@[simp] theorem restart_pulse : (restart s).pulse = s.pulse := rfl
@[simp] theorem restart_inputs : (restart s).inputs = s.inputs := rfl
@[simp] theorem restart_upcoming : (restart s).upcoming = s.upcoming := rfl
@[simp] theorem restart_moves : (restart s).moves = s.moves := rfl
@[simp] theorem restart_placed : (restart s).placed = s.placed := rfl
@[simp] theorem restart_trace : (restart s).trace = s.trace := rfl
@[simp] theorem restart_results : (restart s).results = s.results := rfl
@[simp] theorem restart_instant : (restart s).instant = s.instant := rfl
@[simp] theorem restart_grain : (restart s).grain = s.grain := rfl

/-! ### `applyNote` and `tickTail`: all but the fields they are for -/

@[simp] theorem applyNote_mask (n : Note) : (applyNote n s).mask = s.mask := by cases n <;> rfl
@[simp] theorem applyNote_cursor (n : Note) : (applyNote n s).cursor = s.cursor := by cases n <;> rfl
@[simp] theorem applyNote_state (n : Note) : (applyNote n s).state = s.state := by cases n <;> rfl
@[simp] theorem applyNote_upc (n : Note) : (applyNote n s).upc = s.upc := by cases n <;> rfl
@[simp] theorem applyNote_lvl (n : Note) : (applyNote n s).lvl = s.lvl := by cases n <;> rfl
@[simp] theorem applyNote_sh (n : Note) : (applyNote n s).sh = s.sh := by cases n <;> rfl
@[simp] theorem applyNote_lat (n : Note) : (applyNote n s).lat = s.lat := by cases n <;> rfl
@[simp] theorem applyNote_p (n : Note) : (applyNote n s).p = s.p := by cases n <;> rfl
@[simp] theorem applyNote_pulse (n : Note) : (applyNote n s).pulse = s.pulse := by cases n <;> rfl
@[simp] theorem applyNote_inputs (n : Note) : (applyNote n s).inputs = s.inputs := by cases n <;> rfl
@[simp] theorem applyNote_upcoming (n : Note) : (applyNote n s).upcoming = s.upcoming := by cases n <;> rfl
@[simp] theorem applyNote_moves (n : Note) : (applyNote n s).moves = s.moves := by cases n <;> rfl
@[simp] theorem applyNote_placed (n : Note) : (applyNote n s).placed = s.placed := by cases n <;> rfl
@[simp] theorem applyNote_trace (n : Note) : (applyNote n s).trace = s.trace := by cases n <;> rfl
@[simp] theorem applyNote_results (n : Note) : (applyNote n s).results = s.results := by cases n <;> rfl
@[simp] theorem applyNote_instant (n : Note) : (applyNote n s).instant = s.instant := by cases n <;> rfl
@[simp] theorem applyNote_grain (n : Note) : (applyNote n s).grain = s.grain := by cases n <;> rfl
@[simp] theorem applyNote_committed (n : Note) :
    (applyNote n s).committed = match n with | .commit m => some m | _ => s.committed := by cases n <;> rfl
@[simp] theorem applyNote_acc (n : Note) :
    (applyNote n s).acc = match n with
      | .clearAcc => 0x00#8 | .accBit i => withBit s.acc i (s.level .iData) | _ => s.acc := by cases n <;> rfl

@[simp] theorem tickTail_mask : (tickTail s).mask = s.mask := by unfold tickTail; split <;> rfl
@[simp] theorem tickTail_committed : (tickTail s).committed = s.committed := by unfold tickTail; split <;> rfl
@[simp] theorem tickTail_acc : (tickTail s).acc = s.acc := by unfold tickTail; split <;> rfl
@[simp] theorem tickTail_upc : (tickTail s).upc = s.upc := by unfold tickTail; split <;> rfl
@[simp] theorem tickTail_lvl : (tickTail s).lvl = s.lvl := by unfold tickTail; split <;> rfl
@[simp] theorem tickTail_sh : (tickTail s).sh = s.sh := by unfold tickTail; split <;> rfl
@[simp] theorem tickTail_lat : (tickTail s).lat = s.lat := by unfold tickTail; split <;> rfl
@[simp] theorem tickTail_p : (tickTail s).p = s.p := by unfold tickTail; split <;> rfl
@[simp] theorem tickTail_pulse : (tickTail s).pulse = s.pulse := by unfold tickTail; split <;> rfl
@[simp] theorem tickTail_inputs : (tickTail s).inputs = s.inputs := by unfold tickTail; split <;> rfl
@[simp] theorem tickTail_upcoming : (tickTail s).upcoming = s.upcoming := by unfold tickTail; split <;> rfl
@[simp] theorem tickTail_moves : (tickTail s).moves = s.moves := by unfold tickTail; split <;> rfl
@[simp] theorem tickTail_placed : (tickTail s).placed = s.placed := by unfold tickTail; split <;> rfl
@[simp] theorem tickTail_trace : (tickTail s).trace = s.trace := by unfold tickTail; split <;> rfl
@[simp] theorem tickTail_results : (tickTail s).results = s.results := by unfold tickTail; split <;> rfl
@[simp] theorem tickTail_instant : (tickTail s).instant = s.instant := by unfold tickTail; split <;> rfl
@[simp] theorem tickTail_grain : (tickTail s).grain = s.grain := by unfold tickTail; split <;> rfl

end Sys2Proof.Machine
end

