-- ==== Sys2Proof/Laws/Ops.lean ====
section
/-! SUPPORT. One lemma for each shared operation: what it does when it answers a next state, and what it leaves
alone. -/

namespace Sys2Proof.Machine

/-! ### `andThen`, `whenIdle`, `whenSelected` -/

@[simp] theorem andThen_of_next (t : State) (f : State → Answer) : andThen (.next t) f = f t := rfl
@[simp] theorem andThen_of_refused (r : Refusal) (f : State → Answer) : andThen (.refused r) f = .refused r := rfl

theorem andThen_eq_next {o : Answer} {f : State → Answer} {u : State} (h : andThen o f = .next u) :
    ∃ t, o = .next t ∧ f t = .next u := by
  cases o with
  | next t => exact ⟨t, rfl, h⟩
  | fault e => cases h
  | refused r => cases h

theorem whenIdle_of_idle {s : State} (h : s.upc = .idle) (a : Answer) : whenIdle s a = a := by
  simp [whenIdle, h]

theorem whenIdle_of_running {s : State} (h : s.upc ≠ .idle) (a : Answer) :
    whenIdle s a = .refused .operationRunning := by
  unfold whenIdle; split <;> simp_all

theorem whenIdle_eq_next {s t : State} {a : Answer} (h : whenIdle s a = .next t) : s.upc = .idle ∧ a = .next t := by
  unfold whenIdle at h
  split at h
  · exact ⟨by assumption, h⟩
  · cases h
  · cases h

theorem whenSelected_of_state {st : SeqState} {s : State} (hi : s.upc = .idle) (hs : s.state = st) (a : Answer) :
    whenSelected st s a = a := by
  simp [whenSelected, whenIdle_of_idle hi, hs]

/-! ### The fixed interface is the step relation at the parameters of this board -/

theorem exec_eq_operate (i : Instr) (s : State) : exec i s = operate Config.board i s := by
  cases i <;> rfl

theorem step_eq_advance (s : State) : step s = advance Config.board s := rfl

/-! ### What a step does -/

theorem advance_of_placed {c : Params} {s : State} {code : Code} {rest : List Code} (hi : s.upc = .idle)
    (h : s.placed = code :: rest) : advance c s = runWord c code { s with placed := rest } := by
  simp [advance, hi, takeMove, h]

theorem advance_of_move {c : Params} {s : State} {m : Move} {rest : List Move} (hi : s.upc = .idle)
    (hp : s.placed = []) (h : s.moves = m :: rest) : advance c s = runMove c m { s with moves := rest } := by
  simp [advance, hi, takeMove, hp, h]

theorem advance_of_nothing {c : Params} {s : State} (hi : s.upc = .idle) (hp : s.placed = []) (h : s.moves = []) :
    advance c s = .next s := by
  simp [advance, hi, takeMove, hp, h]

theorem advance_of_running {c : Params} {s : State} (h : s.upc ≠ .idle) : advance c s = microStep c s := by
  unfold advance; split <;> simp_all

/-- All a step can do when nothing is on the bench. -/
theorem advance_cases {c : Params} {s : State} {o : Answer} (h : advance c s = o) (hp : s.placed = []) :
    (s.upc ≠ .idle ∧ o = microStep c s) ∨ (s.upc = .idle ∧ s.moves = [] ∧ o = .next s) ∨
    (s.upc = .idle ∧ ∃ m rest, s.moves = m :: rest ∧ o = runMove c m { s with moves := rest }) := by
  by_cases hi : s.upc = .idle
  · cases hm : s.moves with
    | nil => exact .inr (.inl ⟨hi, rfl, h ▸ advance_of_nothing hi hp hm⟩)
    | cons m rest => exact .inr (.inr ⟨hi, m, rest, rfl, h ▸ advance_of_move hi hp hm⟩)
  · exact .inl ⟨hi, h ▸ advance_of_running hi⟩

/-! ### Runs -/

theorem core_run_zero (s : State) : Host.Core.run core 0 s = .next s := rfl

theorem run_succ (M : Host.Core) (k : Nat) {s t : M.State} (h : M.step s = .next t) :
    M.run (k + 1) s = M.run k t := by
  simp [Host.Core.run, h]

theorem core_run_succ {s t : State} (k : Nat) (h : step s = .next t) :
    Host.Core.run core (k + 1) s = Host.Core.run core k t :=
  run_succ core k h

/-! ### Operands -/

theorem dataBit_eq_getLsbD (m : Byte) (i : Nat) : dataBit m i = m.getLsbD i := by
  have h : (m >>> i &&& 1#8 == 1#8) = (m >>> i).getLsbD 0 := by
    generalize m >>> i = x
    revert x; decide
  simpa [dataBit] using h

theorem orAll_bit (l : List Byte) (b : Byte) (i : Nat) :
    (orAll l b).getLsbD i = (b.getLsbD i || l.any fun x => x.getLsbD i) := by
  induction l generalizing b with
  | nil => simp [orAll]
  | cons x l ih =>
    have h : orAll (x :: l) b = orAll l (b ||| x) := rfl
    rw [h, ih]
    simp [Bool.or_assoc]

theorem Pulse.see_high (q : Pulse) (l : List Byte) (i : Nat) :
    (q.see l).high.getLsbD i = (q.high.getLsbD i || l.any fun x => x.getLsbD i) :=
  orAll_bit l q.high i

theorem Pulse.see_low (q : Pulse) (l : List Byte) (i : Nat) (hi : i < 8) :
    (q.see l).low.getLsbD i = (q.low.getLsbD i || l.any fun x => !x.getLsbD i) := by
  show (orAll (l.map fun x => ~~~x) q.low).getLsbD i = _
  rw [orAll_bit, List.any_map]
  simp [hi, Function.comp_def]

theorem Pulse.known_bit {q : Pulse} (h : q.low ||| q.high = 0xFF#8) (i : Nat) (hi : i < 8) :
    q.low.getLsbD i = true ∨ q.high.getLsbD i = true := by
  have h1 : (0xFF#8).getLsbD i = true := (by decide : ∀ i, i < 8 → (0xFF#8).getLsbD i = true) i hi
  rwa [← h, BitVec.getLsbD_or, Bool.or_eq_true] at h1

/-- Nothing a pulse has seen is forgotten. -/
theorem Pulse.see_known {q : Pulse} (h : q.low ||| q.high = 0xFF#8) (l : List Byte) :
    (q.see l).low ||| (q.see l).high = 0xFF#8 := by
  apply BitVec.eq_of_getLsbD_eq
  intro i hi
  rw [(by decide : ∀ i, i < 8 → (0xFF#8).getLsbD i = true) i hi, BitVec.getLsbD_or, Pulse.see_high,
    Pulse.see_low q l i hi]
  rcases Pulse.known_bit h i hi with k | k <;> simp [k]

theorem Pulse.starting_known (b : Byte) : (Pulse.starting b).low ||| (Pulse.starting b).high = 0xFF#8 := by
  revert b; decide

/-! ### One micro-operation -/

theorem microOp_of_no_objection {c : Params} {op : MicroOp} {s : State} (h : objection op s = none) :
    microOp c op s = .next (act c op s) := by
  simp [microOp, h]

/-- All a micro-operation can do when it answers a next state. -/
theorem microOp_next {c : Params} {op : MicroOp} {s t : State} (h : microOp c op s = .next t) :
    objection op s = none ∧ t = act c op s := by
  unfold microOp at h
  split at h
  · cases h
  · rename_i h1
    cases h
    exact ⟨h1, rfl⟩

/-- A write of a settable line meets an objection only where it makes a rising clock edge in the load pulse. -/
theorem objection_set {l : Line} {v : Level} {s : State} (hl : l.settable = true)
    (h : l ≠ .iClk ∨ v = false ∨ s.lvl.iClk = true ∨ s.lvl.iLoad = true) : objection (.set l v) s = none := by
  rcases h with h | h | h | h <;> simp [objection, hl, rising, h, State.level]

theorem objection_get {l : Line} {s : State} (hl : l.gettable = true) : objection (.get l) s = none := by
  simp [objection, hl]

@[simp] theorem objection_wait (n : Nat) (s : State) : objection (.wait n) s = none := rfl

/-- What one event leaves alone whatever it is. -/
structure Untouched (s t : State) : Prop where
  mask    : t.mask = s.mask
  cursor  : t.cursor = s.cursor
  state   : t.state = s.state
  upc     : t.upc = s.upc
  moves   : t.moves = s.moves
  placed  : t.placed = s.placed
  results : t.results = s.results
  grain   : t.grain = s.grain

theorem Untouched.refl (s : State) : Untouched s s := ⟨rfl, rfl, rfl, rfl, rfl, rfl, rfl, rfl⟩

theorem Untouched.trans {s t u : State} (h : Untouched s t) (k : Untouched t u) : Untouched s u :=
  ⟨k.mask.trans h.mask, k.cursor.trans h.cursor, k.state.trans h.state, k.upc.trans h.upc, k.moves.trans h.moves,
    k.placed.trans h.placed, k.results.trans h.results, k.grain.trans h.grain⟩

theorem act_untouched (c : Params) (op : MicroOp) (s : State) : Untouched s (act c op s) := by
  cases op <;> exact ⟨rfl, rfl, rfl, rfl, rfl, rfl, rfl, rfl⟩

@[simp] theorem act_committed (c : Params) (op : MicroOp) (s : State) : (act c op s).committed = s.committed := by
  cases op <;> rfl

@[simp] theorem act_acc (c : Params) (op : MicroOp) (s : State) : (act c op s).acc = s.acc := by
  cases op <;> rfl

@[simp] theorem act_instant (c : Params) (op : MicroOp) (s : State) : (act c op s).instant = s.instant + 1 := by
  cases op <;> rfl

@[simp] theorem act_inputs (c : Params) (op : MicroOp) (s : State) :
    (act c op s).inputs = (passed s).getLastD s.inputs := by
  cases op <;> rfl

@[simp] theorem act_upcoming (c : Params) (op : MicroOp) (s : State) : (act c op s).upcoming = s.upcoming.tail := by
  cases op <;> rfl

/-- The event of a micro-operation. -/
def eventOf (op : MicroOp) (s : State) : Event :=
  match op with
  | .set l v => .write l v
  | .get l => .read l (s.level l)
  | .wait n => .delay n

@[simp] theorem act_trace (c : Params) (op : MicroOp) (s : State) :
    (act c op s).trace = s.trace ++ [eventOf op s] := by
  cases op <;> rfl

/-! ### Rows -/

theorem runRow_untouched (c : Params) (r : MicroStep) (s : State) : Untouched s (runRow c r s) := by
  have k := act_untouched c r.op s
  exact ⟨by simp [runRow, k.mask], by simp [runRow, k.cursor], by simp [runRow, k.state], by simp [runRow, k.upc],
    by simp [runRow, k.moves], by simp [runRow, k.placed], by simp [runRow, k.results], by simp [runRow, k.grain]⟩

@[simp] theorem runRows_nil (c : Params) (s : State) : runRows c [] s = s := rfl
@[simp] theorem runRows_cons (c : Params) (r : MicroStep) (rest : List MicroStep) (s : State) :
    runRows c (r :: rest) s = runRows c rest (runRow c r s) := rfl

theorem runRows_append (c : Params) (a b : List MicroStep) (s : State) :
    runRows c (a ++ b) s = runRows c b (runRows c a s) := by
  induction a generalizing s with
  | nil => rfl
  | cons r rest ih => exact ih _

theorem runRows_untouched (c : Params) (rows : List MicroStep) (s : State) : Untouched s (runRows c rows s) := by
  induction rows generalizing s with
  | nil => exact .refl _
  | cons r rest ih => exact (runRow_untouched c r s).trans (ih _)

/-- Every row is one event (R80). -/
theorem runRows_instant (c : Params) (rows : List MicroStep) (s : State) :
    (runRows c rows s).instant = s.instant + rows.length := by
  induction rows generalizing s with
  | nil => rfl
  | cons r rest ih =>
    rw [runRows_cons, ih, runRow, applyNote_instant, act_instant, List.length_cons]
    omega

/-- With nothing to come from the outside, the input lines hold through any list of rows (R29). -/
theorem runRows_inputs_hold (c : Params) (rows : List MicroStep) (s : State) (hs : s.upcoming = []) :
    (runRows c rows s).upcoming = [] ∧ (runRows c rows s).inputs = s.inputs := by
  induction rows generalizing s with
  | nil => exact ⟨hs, rfl⟩
  | cons r rest ih =>
    obtain ⟨h1, h2⟩ := ih (runRow c r s) (by simp [runRow, hs])
    exact ⟨h1, by rw [runRows_cons, h2]; simp [runRow, passed, hs]⟩

/-! ### No row reads or writes `upc` -/

theorem objection_upc (op : MicroOp) (u : Upc) (s : State) : objection op { s with upc := u } = objection op s := by
  cases op <;> rfl

theorem runRow_upc (c : Params) (r : MicroStep) (u : Upc) (s : State) :
    runRow c r { s with upc := u } = { runRow c r s with upc := u } := by
  obtain ⟨op, note⟩ := r
  cases op with
  | set l v => cases note <;> rfl
  | get l => cases l <;> cases note <;> rfl
  | wait n => cases note <;> rfl

theorem runRows_upc (c : Params) (rows : List MicroStep) (u : Upc) (s : State) :
    runRows c rows { s with upc := u } = { runRows c rows s with upc := u } := by
  induction rows generalizing s with
  | nil => rfl
  | cons r rest ih => rw [runRows_cons, runRow_upc, ih]; rfl

end Sys2Proof.Machine
end

