-- ==== Sys2Proof/Laws/Frames.lean ====
section
/-! SUPPORT. What the micro-sequences do: a slot, a frame, and the shared operations `frame` and `snapshot` as
wholes; and which row stands where in `DRIVE`. -/

namespace Sys2Proof.Machine

open Sys2Proof.Safety

/-! ### Bits -/

theorem shiftIn_bit (p : Byte) (f : Bool) (i : Nat) (h : i < 7) : (shiftIn p f).getLsbD (i + 1) = p.getLsbD i := by
  unfold shiftIn
  cases f <;> simp <;> omega

theorem shiftOut_bit_zero (sh : Byte) (b : Level) : (shiftOut sh b).getLsbD 0 = b := by
  unfold shiftOut
  cases b <;> simp

theorem shiftOut_bit_succ (sh : Byte) (b : Level) (i : Nat) (h : i < 7) :
    (shiftOut sh b).getLsbD (i + 1) = sh.getLsbD i := by
  unfold shiftOut
  cases b <;> simp <;> omega

/-- Eight shifts, most significant bit first, leave the byte (R132). -/
theorem shiftOut_eight (m x : Byte) :
    [7, 6, 5, 4, 3, 2, 1, 0].foldl (fun x i => shiftOut x (m.getLsbD i)) x = m := by
  apply BitVec.eq_of_getLsbD_eq
  intro i hi
  simp only [List.foldl]
  have : i = 0 ∨ i = 1 ∨ i = 2 ∨ i = 3 ∨ i = 4 ∨ i = 5 ∨ i = 6 ∨ i = 7 := by omega
  rcases this with rfl | rfl | rfl | rfl | rfl | rfl | rfl | rfl <;>
    simp only [shiftOut_bit_zero, shiftOut_bit_succ _ _ 0 (by omega), shiftOut_bit_succ _ _ 1 (by omega),
      shiftOut_bit_succ _ _ 2 (by omega), shiftOut_bit_succ _ _ 3 (by omega), shiftOut_bit_succ _ _ 4 (by omega),
      shiftOut_bit_succ _ _ 5 (by omega), shiftOut_bit_succ _ _ 6 (by omega)]

theorem withBit_bit (a : Byte) (i j : Nat) (b : Level) (hj : j < 8) :
    (withBit a i b).getLsbD j = if j = i then b else a.getLsbD j := by
  have h1 : (oneBit i).getLsbD j = decide (j = i) := by
    simp only [oneBit, BitVec.getLsbD_shiftLeft, BitVec.getLsbD_one]
    by_cases h : j = i
    · subst h; simp [hj]
    · by_cases h2 : j < i <;> simp [h, h2]
      omega
  unfold withBit
  by_cases h : j = i <;> cases b <;> simp_all

/-! ### The rows of `DRIVE` and of `SAMPLE` -/

theorem slotLength_pos (c : Params) : 3 ≤ slotLength c ∧ slotLength c ≤ 4 := by
  unfold slotLength; split <;> omega

/-- A slot of this board has no set-up wait (R93, D11). -/
@[simp] theorem slotLength_board : slotLength Config.board = 3 := rfl

/-- The latch of this board's frame is micro-step 26 (R89). -/
@[simp] theorem latchStep_board : latchStep Config.board = 26 := rfl

/-- This board's frame has 28 micro-steps and those of a read-back (R20, R87, R91). -/
@[simp] theorem driveLength_board :
    driveLength Config.board = 28 + if Config.board.diagReadback then 4 else 0 := rfl

theorem outSlot_length (c : Params) (m : Byte) (i : Nat) : (outSlot c m i).length = slotLength c := by
  unfold outSlot slotLength; split <;> rfl

theorem readBack_length (c : Params) : (readBack c).length = if c.diagReadback then 4 else 0 := by
  unfold readBack; split <;> rfl

theorem driveRows_length (c : Params) (m : Byte) : (driveRows c m).length = driveLength c := by
  simp [driveRows, slotOrder, outSlot_length, readBack_length, driveLength, latchStep]
  omega

theorem sampleRows_length (c : Params) : (sampleRows c).length = 43 := rfl

/-- An element of equal pieces put end to end stands in one of the pieces. -/
theorem flatMap_at {α β : Type} {f : α → List β} {L : Nat} (hf : ∀ a, (f a).length = L) {ks : List α} {k : Nat}
    {r : β} (h : (ks.flatMap f)[k]? = some r) :
    ∃ j a q, ks[j]? = some a ∧ q < L ∧ k = L * j + q ∧ (f a)[q]? = some r := by
  induction ks generalizing k with
  | nil => simp at h
  | cons a ks ih =>
    rw [List.flatMap_cons, List.getElem?_append, hf] at h
    split at h
    · exact ⟨0, a, k, rfl, by assumption, by omega, h⟩
    · obtain ⟨j, b, q, h1, h2, h3, h4⟩ := ih h
      exact ⟨j + 1, b, q, by simpa using h1, h2, by rw [Nat.mul_succ]; omega, h4⟩

theorem slotOrder_at {j i : Nat} (h : slotOrder[j]? = some i) : j < 8 ∧ i = 7 - j := by
  have hj : j < 8 := (List.getElem?_eq_some_iff.mp h).1
  have : j = 0 ∨ j = 1 ∨ j = 2 ∨ j = 3 ∨ j = 4 ∨ j = 5 ∨ j = 6 ∨ j = 7 := by omega
  rcases this with rfl | rfl | rfl | rfl | rfl | rfl | rfl | rfl <;> exact ⟨hj, (Option.some.inj h).symm⟩

/-- Which row of an output slot stands at which place. -/
theorem outSlot_at {c : Params} {m : Byte} {i q : Nat} {r : MicroStep} (h : (outSlot c m i)[q]? = some r) :
    (q = 0 ∧ r = plain (.set .oClk false)) ∨ (q = 1 ∧ r = plain (.set .oData (m.getLsbD i))) ∨
    (q = 2 ∧ slotLength c = 4 ∧ r = plain (.wait c.tSetup)) ∨
    (q + 1 = slotLength c ∧ r = plain (.set .oClk true)) := by
  unfold outSlot at h
  unfold slotLength
  by_cases ht : c.tSetup = 0 <;> simp only [ht, if_true, if_false] at h ⊢ <;>
    rcases q with _ | _ | _ | _ | q <;> simp_all [dataBit_eq_getLsbD]

/-- Which row of `DRIVE` stands at which micro-step index (R89). -/
theorem driveRows_at {c : Params} {m : Byte} {k : Nat} {r : MicroStep} (h : (driveRows c m)[k]? = some r) :
    (k = 0 ∧ r = plain (.set .oOe c.oeOn)) ∨ (k = 1 ∧ r = plain (.set .oLatch false)) ∨
    (∃ j q, j < 8 ∧ q < slotLength c ∧ k = 2 + slotLength c * j + q ∧
      ((q = 0 ∧ r = plain (.set .oClk false)) ∨ (q = 1 ∧ r = plain (.set .oData (m.getLsbD (7 - j)))) ∨
        (q = 2 ∧ slotLength c = 4 ∧ r = plain (.wait c.tSetup)) ∨
        (q + 1 = slotLength c ∧ r = plain (.set .oClk true)))) ∨
    (k = latchStep c ∧ r = { op := .set .oLatch true, note := .commit m }) ∨
    (k = latchStep c + 1 ∧ r = plain (.wait c.tLatchHold)) ∨
    (latchStep c + 2 ≤ k ∧ k < driveLength c ∧ ∃ l, l.gettable = true ∧ r = plain (.get l)) := by
  have hl : (slotOrder.flatMap (outSlot c m)).length = 8 * slotLength c := by
    simp [slotOrder, outSlot_length]; omega
  have hk : k < driveLength c := driveRows_length c m ▸ (List.getElem?_eq_some_iff.mp h).1
  unfold driveRows at h
  rw [List.append_assoc, List.append_assoc, List.getElem?_append] at h
  split at h
  · rename_i h2
    rcases k with _ | _ | k
    · exact .inl ⟨rfl, (Option.some.inj h).symm⟩
    · exact .inr (.inl ⟨rfl, (Option.some.inj h).symm⟩)
    · simp at h2
  · rename_i h2
    simp only [List.length_cons, List.length_nil, Nat.not_lt] at h2 h
    rw [List.getElem?_append] at h
    split at h
    · obtain ⟨j, i, q, h3, h4, h5, h6⟩ := flatMap_at (outSlot_length c m) h
      obtain ⟨hj, rfl⟩ := slotOrder_at h3
      exact .inr (.inr (.inl ⟨j, q, hj, h4, by omega, outSlot_at h6⟩))
    · rename_i h3
      rw [hl] at h h3
      have e : k = latchStep c + (k - latchStep c) := by unfold latchStep at *; omega
      generalize hx : k - latchStep c = x at e
      rw [show k - (0 + 1 + 1) - 8 * slotLength c = x by rw [← hx]; unfold latchStep; omega] at h
      rcases x with _ | _ | x
      · exact .inr (.inr (.inr (.inl ⟨e, (Option.some.inj h).symm⟩)))
      · exact .inr (.inr (.inr (.inr (.inl ⟨e, (Option.some.inj h).symm⟩))))
      · refine .inr (.inr (.inr (.inr (.inr ⟨by omega, hk, ?_⟩))))
        have h : (readBack c)[x]? = some r := h
        unfold readBack at h
        split at h
        · rcases x with _ | _ | _ | _ | x
          · exact ⟨.oData, rfl, (Option.some.inj h).symm⟩
          · exact ⟨.oClk, rfl, (Option.some.inj h).symm⟩
          · exact ⟨.oLatch, rfl, (Option.some.inj h).symm⟩
          · exact ⟨.oOe, rfl, (Option.some.inj h).symm⟩
          · simp at h
        · simp at h

/-- Which rows of `SAMPLE` stand at which micro-step indices (R99). -/
theorem sampleRows_at {c : Params} {k : Nat} {r : MicroStep} (h : (sampleRows c)[k]? = some r) :
    k < 43 ∧
    ((k = 0 ∧ r = plain (.set .iLoad false)) ∨ (k = 1 ∧ r = plain (.wait c.tLoadLow)) ∨
      (k = 2 ∧ r = { op := .set .iLoad true, note := .clearAcc }) ∨
      (3 ≤ k ∧ ((∃ v, r = plain (.set .iClk v)) ∨ (∃ i, r = { op := .get .iData, note := .accBit i }) ∨
        r = plain (.wait c.tClkHalf)))) := by
  refine ⟨(List.getElem?_eq_some_iff.mp h).1, ?_⟩
  unfold sampleRows at h
  rw [List.getElem?_append] at h
  split at h
  · rename_i hk
    rcases k with _ | _ | _ | k
    · exact .inl ⟨rfl, (Option.some.inj h).symm⟩
    · exact .inr (.inl ⟨rfl, (Option.some.inj h).symm⟩)
    · exact .inr (.inr (.inl ⟨rfl, (Option.some.inj h).symm⟩))
    · exact absurd (show k + 3 < 3 from hk) (by omega)
  · rename_i hk
    refine .inr (.inr (.inr ⟨by simpa [loadPulse] using hk, ?_⟩))
    obtain ⟨j, i, q, -, -, -, hq⟩ := flatMap_at (f := inSlot c) (L := 5) (fun _ => rfl) h
    rcases q with _ | _ | _ | _ | _ | q
    · exact .inl ⟨false, (Option.some.inj hq).symm⟩
    · exact .inr (.inr (Option.some.inj hq).symm)
    · exact .inr (.inl ⟨i, (Option.some.inj hq).symm⟩)
    · exact .inl ⟨true, (Option.some.inj hq).symm⟩
    · exact .inr (.inr (Option.some.inj hq).symm)
    · simp [inSlot] at hq

/-! ### One micro-step -/

/-- No row of `DRIVE` meets an objection (R76). -/
theorem driveRows_no_objection {c : Params} {m : Byte} {k : Nat} {r : MicroStep} (s : State)
    (h : (driveRows c m)[k]? = some r) : objection r.op s = none := by
  obtain ⟨-, rfl⟩ | ⟨-, rfl⟩ | ⟨j, q, -, -, -, ⟨-, rfl⟩ | ⟨-, rfl⟩ | ⟨-, -, rfl⟩ | ⟨-, rfl⟩⟩ | ⟨-, rfl⟩ | ⟨-, rfl⟩ |
    ⟨-, -, l, hl, rfl⟩ := driveRows_at h <;> first | rfl | exact objection_get hl

/-- No row of `SAMPLE` meets an objection: after the load pulse `I_LOAD` is high (R76, R97). -/
theorem sampleRows_no_objection {c : Params} {k : Nat} {r : MicroStep} {s : State} (hl : 3 ≤ k → s.lvl.iLoad = true)
    (h : (sampleRows c)[k]? = some r) : objection r.op s = none := by
  obtain ⟨-, ⟨-, rfl⟩ | ⟨-, rfl⟩ | ⟨-, rfl⟩ | ⟨hk, ⟨v, rfl⟩ | ⟨i, rfl⟩ | rfl⟩⟩ := sampleRows_at h <;>
    first | rfl | exact objection_set rfl (.inr (.inr (.inr (hl hk))))

theorem stepRow_eq_next {c : Params} {o : Option MicroStep} {leave : State → State} {s t : State}
    (h : stepRow c o leave s = .next t) : ∃ r, o = some r ∧ t = leave (runRow c r s) := by
  cases o with
  | none => cases h
  | some r =>
    obtain ⟨u, hu, ht⟩ := andThen_eq_next h
    obtain ⟨-, rfl⟩ := microOp_next hu
    cases ht
    exact ⟨r, rfl, rfl⟩

theorem stepRow_of_no_objection {c : Params} {r : MicroStep} (leave : State → State) {s : State}
    (h : objection r.op s = none) : stepRow c (some r) leave s = .next (leave (runRow c r s)) := by
  simp [stepRow, microOp_of_no_objection h, runRow]

/-- All a micro-step of a `DRIVE` does, and that it answers inside the table. -/
theorem microStep_driving {c : Params} {s : State} {m : Byte} {k : Nat} {b : Bool} (hu : s.upc = .driving m k b)
    (hk : k < driveLength c) :
    ∃ r, (driveRows c m)[k]? = some r ∧ microStep c s = .next (leaveDriveRow c m k b (runRow c r s)) := by
  have h : (driveRows c m)[k]? = some _ := List.getElem?_eq_getElem (driveRows_length c m ▸ hk)
  exact ⟨_, h, by simp only [microStep, hu, h]; exact stepRow_of_no_objection _ (driveRows_no_objection s h)⟩

/-- All a micro-step of a `SAMPLE` does, and that it answers inside the table. -/
theorem microStep_sampling {c : Params} {s : State} {k : Nat} {b : Bool} (hu : s.upc = .sampling k b) (hk : k < 43)
    (hl : 3 ≤ k → s.lvl.iLoad = true) :
    ∃ r, (sampleRows c)[k]? = some r ∧ microStep c s = .next (leaveSampleRow c k b (runRow c r s)) := by
  have h : (sampleRows c)[k]? = some _ := List.getElem?_eq_getElem (sampleRows_length c ▸ hk)
  exact ⟨_, h, by simp only [microStep, hu, h]; exact stepRow_of_no_objection _ (sampleRows_no_objection hl h)⟩

/-! ### The output frame -/

theorem outSlot_run (c : Params) (m : Byte) (i : Nat) (s : State) :
    ∃ t, runRows c (outSlot c m i) s = t ∧ Untouched s t ∧
      t.sh = shiftOut s.sh (m.getLsbD i) ∧ t.lat = s.lat ∧ t.committed = s.committed ∧
      t.lvl = { s.lvl with oClk := true, oData := m.getLsbD i } ∧ t.p = s.p ∧ t.acc = s.acc ∧
      t.trace = s.trace ++ ([.write .oClk false, .write .oData (m.getLsbD i)]
        ++ (if c.tSetup = 0 then [] else [.delay c.tSetup]) ++ [.write .oClk true]) := by
  refine ⟨_, rfl, runRows_untouched _ _ _, ?_⟩
  by_cases h : c.tSetup = 0 <;>
    simp [outSlot, plain, h, runRow, act, applyNote, rising, State.level, setLevel, dataBit_eq_getLsbD]

theorem outSlots_run (c : Params) (m : Byte) (ks : List Nat) (s : State) :
    ∃ t, runRows c (ks.flatMap (outSlot c m)) s = t ∧ Untouched s t ∧
      t.sh = ks.foldl (fun x i => shiftOut x (m.getLsbD i)) s.sh ∧ t.lat = s.lat ∧ t.committed = s.committed ∧
      (t.lvl = if ks = [] then s.lvl else { s.lvl with oClk := true, oData := m.getLsbD (ks.getLastD 0) }) ∧
      t.p = s.p ∧ t.acc = s.acc ∧
      t.trace = s.trace ++ ks.flatMap fun i => [.write .oClk false, .write .oData (m.getLsbD i)]
        ++ (if c.tSetup = 0 then [] else [.delay c.tSetup]) ++ [.write .oClk true] := by
  induction ks generalizing s with
  | nil => exact ⟨s, rfl, .refl _, rfl, rfl, rfl, rfl, rfl, rfl, by simp⟩
  | cons k ks ih =>
    obtain ⟨u, hu, h1, h2, h3, h4, h5, h6, h7, h8⟩ := outSlot_run c m k s
    obtain ⟨t, ht, g1, g2, g3, g4, g5, g6, g7, g8⟩ := ih u
    refine ⟨t, by simp [runRows_append, hu, ht], h1.trans g1, by simp [g2, h2], g3.trans h3, g4.trans h4, ?_,
      g6.trans h6, g7.trans h7, ?_⟩
    · rw [g5, h5]
      cases ks <;> simp
    · simp [g8, h8]

theorem readBack_run (c : Params) (s : State) :
    ∃ t, runRows c (readBack c) s = t ∧ Untouched s t ∧ t.sh = s.sh ∧ t.lat = s.lat ∧
      t.committed = s.committed ∧ t.lvl = s.lvl ∧ t.p = s.p ∧ t.acc = s.acc ∧
      t.trace = s.trace ++ (if c.diagReadback then
        [.read .oData s.lvl.oData, .read .oClk s.lvl.oClk, .read .oLatch s.lvl.oLatch, .read .oOe s.lvl.oOe]
        else []) := by
  refine ⟨_, rfl, runRows_untouched _ _ _, ?_⟩
  by_cases h : c.diagReadback <;> simp [readBack, plain, h, runRow, act, applyNote, State.level]

/-- All that `frame` does, whatever the parameters and the start state (R87, R92). -/
theorem frame_run (c : Params) (m : Byte) (s : State) :
    ∃ t, frame c m s = t ∧ Untouched s t ∧ t.sh = m ∧ t.lat = m ∧ t.committed = some m ∧
      t.lvl = { s.lvl with oClk := true, oData := m.getLsbD 0, oLatch := true, oOe := c.oeOn } ∧
      t.p = s.p ∧ t.acc = s.acc ∧ t.trace = s.trace ++ frameEvents c m := by
  refine ⟨_, rfl, runRows_untouched _ _ _, ?_⟩
  unfold frame driveRows
  rw [runRows_append, runRows_append, runRows_append]
  obtain ⟨u, hu, -, h2, h3, h4, h5, h6, h7, h8⟩ := outSlots_run c m slotOrder
    (runRows c [plain (.set .oOe c.oeOn), plain (.set .oLatch false)] s)
  rw [hu]
  obtain ⟨t, ht, -, g2, g3, g4, g5, g6, g7, g8⟩ := readBack_run c
    (runRows c [{ op := .set .oLatch true, note := .commit m }, plain (.wait c.tLatchHold)] u)
  rw [ht, g2, g3, g4, g5, g6, g7, g8]
  rw [show slotOrder = [7, 6, 5, 4, 3, 2, 1, 0] from rfl] at h2 h5 h8
  rw [shiftOut_eight] at h2
  simp [plain, runRow, act, applyNote, rising, State.level, setLevel, h2, h5, h6, h7]
  simp [h8, frameEvents, readBackEvents, plain, runRow, act, applyNote]

/-- The read-back of `DRIVE(m)` is `(m[0], 1, 1, OE_ON)` (R91). -/
theorem frame_lineLevels (c : Params) (m : Byte) (s : State) :
    lineLevels (frame c m s) = .lineLevels (m.getLsbD 0) true true c.oeOn := by
  obtain ⟨t, e, -, -, -, -, l, -⟩ := frame_run c m s
  simp [lineLevels, State.level, e, l]

/-- The frame where `T_SETUP` is 0, nothing is read back and the hold is 5 microseconds (R87). -/
theorem frameEvents_plain (c : Params) (m : Byte) (h : c.tSetup = 0) (hr : c.diagReadback = false)
    (hh : c.tLatchHold = 5) : frameEvents c m = driveEvents c.oeOn m := by
  simp [frameEvents, driveEvents, outSlotEvents, h, hr, hh]

/-- The frame of this board: the 28 events of R87, and the read-back where `DIAG_READBACK` asks for it (R91). -/
theorem frameEvents_board (m : Byte) :
    frameEvents Config.board m =
      driveEvents false m ++ (if Config.board.diagReadback then readBackEvents false m else []) := rfl

/-! ### The input frame -/

/-- Of line `i` the pulse knows some level, and every level it knows is in `P`. -/
def Pulse.Tells (q : Pulse) (i : Nat) (P : Level → Prop) : Prop :=
  (q.low.getLsbD i = true ∨ q.high.getLsbD i = true) ∧ (q.high.getLsbD i = true → P true) ∧
    (q.low.getLsbD i = true → P false)

theorem Pulse.tells_starting {b : Byte} {i : Nat} {P : Level → Prop} (hi : i < 8) (h : P (b.getLsbD i)) :
    (Pulse.starting b).Tells i P := by
  have hn : (~~~b).getLsbD i = !b.getLsbD i := by simp [hi]
  simp only [Pulse.Tells, Pulse.starting, hn]
  cases hb : b.getLsbD i <;> rw [hb] at h <;> simp [h]

theorem Pulse.tells_see {q : Pulse} {l : List Byte} {i : Nat} {P : Level → Prop} (hi : i < 8) (hq : q.Tells i P)
    (h : ∀ x ∈ l, P (x.getLsbD i)) : (q.see l).Tells i P := by
  obtain ⟨hk, h1, h0⟩ := hq
  simp only [Pulse.Tells, Pulse.see_high, Pulse.see_low _ _ _ hi, Bool.or_eq_true, List.any_eq_true]
  refine ⟨hk.imp .inl .inl, ?_, ?_⟩
  · rintro (k | ⟨x, hx, k⟩)
    · exact h1 k
    · exact k ▸ h x hx
  · rintro (k | ⟨x, hx, k⟩)
    · exact h0 k
    · exact (Bool.not_eq_true' _ ▸ k : x.getLsbD i = false) ▸ h x hx

/-- A captured bit is a level its line had in the pulse (R134). -/
theorem captured_bit {c : Params} {s : State} {q : Pulse} {i : Nat} {P : Level → Prop} (hi : i < 8)
    (hp : s.pulse = some q) (hq : q.Tells i P) : P ((captured c s).getLsbD i) := by
  have hc : (captured c s).getLsbD i =
      (q.high.getLsbD i && (!q.low.getLsbD i || (c.captureBits s.instant).getLsbD i)) := by
    simp [captured, hp, hi]
  obtain ⟨hk, h1, h0⟩ := hq
  rw [hc]
  cases k1 : q.high.getLsbD i <;> cases k2 : q.low.getLsbD i <;>
    cases (c.captureBits s.instant).getLsbD i <;> rw [k1] at hk h1 <;> rw [k2] at hk h0 <;> simp_all

theorem loadPulse_run (c : Params) (s : State) (hk : ∀ q, s.pulse = some q → q.low ||| q.high = 0xFF#8) :
    ∃ t, runRows c (loadPulse c) s = t ∧ Untouched s t ∧ CaughtInPulse s t.p ∧
      t.lvl = { s.lvl with iLoad := true } ∧ t.pulse = none ∧ t.sh = s.sh ∧ t.lat = s.lat ∧
      t.committed = s.committed ∧
      t.trace = s.trace ++ [.write .iLoad false, .delay c.tLoadLow, .write .iLoad true] := by
  refine ⟨_, rfl, runRows_untouched _ _ _, ?_, ?_⟩
  · intro i hi
    simp [loadPulse, plain, runRow, act, applyNote, rising, State.level, setLevel]
    refine captured_bit (P := fun b => (∃ x ∈ pulseLevels s, b = x.getLsbD i) ∨ SeenInPulse s i b) hi rfl ?_
    refine Pulse.tells_see hi (Pulse.tells_see hi ?_ ?_) ?_
    · cases h : s.pulse with
      | none =>
        simp only [atInstant_pulse, h, Option.map_none, Option.getD_none]
        exact Pulse.tells_starting hi (.inl ⟨_, by simp [pulseLevels, h, atLoadLow], rfl⟩)
      | some q =>
        simp only [atInstant_pulse, h, Option.map_some, Option.getD_some]
        exact Pulse.tells_see hi ⟨Pulse.known_bit (hk q h) i hi, fun k => .inr ⟨q, h, k⟩, fun k => .inr ⟨q, h, k⟩⟩
          fun x hx => .inl ⟨x, by simp [pulseLevels, h, hx], rfl⟩
    · exact fun x hx => .inl ⟨x, List.mem_append_right _ (List.mem_append_left _ hx), rfl⟩
    · exact fun x hx => .inl ⟨x, List.mem_append_right _ (List.mem_append_right _ hx), rfl⟩
  · simp [loadPulse, plain, runRow, act, applyNote, rising, setLevel, nextPulse]

theorem inSlot_run (c : Params) (i : Nat) (s : State) :
    ∃ t f, runRows c (inSlot c i) s = t ∧ Untouched s t ∧
      t.acc = withBit s.acc i (s.p.getLsbD 7) ∧ t.p = shiftIn s.p f ∧ t.lvl = { s.lvl with iClk := true } ∧
      t.sh = s.sh ∧ t.lat = s.lat ∧ t.committed = s.committed ∧ (s.pulse = none → t.pulse = none) ∧
      t.trace = s.trace ++ [.write .iClk false, .delay c.tClkHalf, .read .iData (s.p.getLsbD 7),
        .write .iClk true, .delay c.tClkHalf] := by
  refine ⟨_, c.fillBit (s.instant + 3), rfl, runRows_untouched _ _ _, ?_⟩
  simp +contextual [inSlot, plain, runRow, act, rising, State.level, setLevel, applyNote, nextPulse]

/-- After `n` slots: the `n` high bits of `acc` are those of the captured byte, which has moved `n` places up. -/
theorem inSlots_upto (c : Params) (s : State) (n : Nat) (hn : n ≤ 8) :
    ∃ t, runRows c ((List.range n).flatMap fun k => inSlot c (7 - k)) s = t ∧ Untouched s t ∧
      (∀ i, i < n → t.acc.getLsbD (7 - i) = s.p.getLsbD (7 - i)) ∧
      (∀ i, i + n < 8 → t.p.getLsbD (i + n) = s.p.getLsbD i) ∧
      (t.lvl = if n = 0 then s.lvl else { s.lvl with iClk := true }) ∧ t.sh = s.sh ∧ t.lat = s.lat ∧
      t.committed = s.committed ∧ (s.pulse = none → t.pulse = none) ∧
      (c.tClkHalf = 2 → t.trace = s.trace ++ (List.range n).flatMap (inSlotEvents s.p)) := by
  induction n with
  | zero => exact ⟨s, rfl, .refl _, by simp, by simp, rfl, rfl, rfl, rfl, id, by simp⟩
  | succ n ih =>
    obtain ⟨u, hu, un, ac, pp, lv, a1, a2, a3, pn, tr⟩ := ih (by omega)
    obtain ⟨t, f, ht, tn, ac', pp', lv', b1, b2, b3, pn', tr'⟩ := inSlot_run c (7 - n) u
    have hb : u.p.getLsbD 7 = s.p.getLsbD (7 - n) := by
      have := pp (7 - n) (by omega)
      rwa [show 7 - n + n = 7 by omega] at this
    refine ⟨t, ?_, un.trans tn, ?_, ?_, ?_, b1.trans a1, b2.trans a2, b3.trans a3, pn' ∘ pn, ?_⟩
    · rw [List.range_succ, List.flatMap_append, runRows_append, hu]
      simpa using ht
    · intro i hi
      rw [ac', hb, withBit_bit _ _ _ _ (by omega)]
      by_cases h : i = n
      · subst h; simp
      · rw [if_neg (by omega)]; exact ac i (by omega)
    · intro i hi
      rw [pp', ← Nat.add_assoc, shiftIn_bit _ _ _ (by omega)]
      exact pp i (by omega)
    · rw [lv', lv]
      split <;> simp
    · intro h
      rw [tr', tr h, hb, List.range_succ, List.flatMap_append]
      simp [inSlotEvents, h]

theorem inSlots_run (c : Params) (s : State) :
    ∃ t, runRows c (slotOrder.flatMap (inSlot c)) s = t ∧ Untouched s t ∧ t.acc = s.p ∧
      t.lvl = { s.lvl with iClk := true } ∧ t.sh = s.sh ∧ t.lat = s.lat ∧ t.committed = s.committed ∧
      (s.pulse = none → t.pulse = none) ∧
      (c.tClkHalf = 2 → t.trace = s.trace ++ [0, 1, 2, 3, 4, 5, 6, 7].flatMap (inSlotEvents s.p)) := by
  obtain ⟨t, h, un, ac, -, lv, a1, a2, a3, pn, tr⟩ := inSlots_upto c s 8 (by omega)
  refine ⟨t, h, un, ?_, lv, a1, a2, a3, pn, tr⟩
  apply BitVec.eq_of_getLsbD_eq
  intro i hi
  have := ac (7 - i) (by omega)
  rwa [show 7 - (7 - i) = i by omega] at this

/-- All that `snapshot` does, whatever the start state and the free values (R97, R98). -/
theorem snapshot_run (c : Params) (b : Bool) (s : State)
    (hk : ∀ q, s.pulse = some q → q.low ||| q.high = 0xFF#8) (h5 : c.tLoadLow = 5) (h2 : c.tClkHalf = 2) :
    ∃ t r, snapshot c b s = t ∧ CaughtInPulse s r ∧ SameSequencer s t ∧ SameOutside s t ∧
      t.results = s.results ++ [if b then reportOf r else .snapshot r] ∧ t.acc = r ∧
      t.lvl = { s.lvl with iClk := true, iLoad := true } ∧ t.sh = s.sh ∧ t.lat = s.lat ∧
      t.committed = s.committed ∧ t.pulse = none ∧ t.trace = s.trace ++ sampleEvents r := by
  obtain ⟨u, e, un, cp, l, pn, a1, a2, a3, tr⟩ := loadPulse_run c s hk
  obtain ⟨t, e', un', ac, l', b1, b2, b3, pn', tr'⟩ := inSlots_run c u
  have w := un.trans un'
  refine ⟨_, u.p, rfl, cp, ?_⟩
  unfold snapshot sampleRows
  rw [runRows_append, e, e']
  simp [SameSequencer, SameOutside, w.mask, w.cursor, w.state, w.upc, w.moves, w.placed, w.grain, w.results, ac, l',
    l, b1, a1, b2, a2, b3, a3, pn' pn, tr' h2, tr, sampleEvents, h5]

/-! ### A tick -/

/-- A tick that drives: the mask, one frame of it, the update (R107). -/
theorem tick_run {c : Params} {s : State} (hi : s.upc = .idle) (hs : s.state ≠ .halted) :
    tick c s = .next (tickTail (frame c (tickMask s) { s with mask := tickMask s })) := by
  have key : ∀ (m : Byte) (tail : State → State), tick c s = .next (driveThen c m tail s) → tickMask s = m →
      (∀ t : State, t.state = s.state → tickTail t = tail t) →
      tick c s = .next (tickTail (frame c (tickMask s) { s with mask := tickMask s })) := by
    rintro m tail h rfl ht
    have hf : (frame c (tickMask s) { s with mask := tickMask s }).state = s.state := (runRows_untouched _ _ _).state
    rw [h, ht _ hf, driveThen]
  obtain ⟨st, hst⟩ : ∃ st, s.state = st := ⟨_, rfl⟩
  cases st <;>
    first
    | exact absurd hst hs
    | exact key _ _ (by unfold tick; rw [hst]; exact whenSelected_of_state hi hst _) (by unfold tickMask; rw [hst])
        (fun t ht => by unfold tickTail; rw [ht, hst])

/-- The tick after the run (R113). -/
theorem tick_of_halted {c : Params} {s : State} (hi : s.upc = .idle) (hs : s.state = .halted) :
    tick c s = .next s := by
  simp [tick, hs, tickHalted, whenSelected_of_state hi hs]

theorem whenSelected_eq_next {st : SeqState} {s t : State} {a : Answer} (h : whenSelected st s a = .next t) :
    s.upc = .idle ∧ s.state = st ∧ a = .next t := by
  obtain ⟨hi, h⟩ := whenIdle_eq_next h
  split at h
  · exact ⟨hi, by assumption, h⟩
  · cases h

/-- All a tick can do when it answers. -/
theorem tick_next {c : Params} {s t : State} (h : tick c s = .next t) :
    s.upc = .idle ∧ ((s.state = .halted ∧ t = s) ∨
      (s.state ≠ .halted ∧ t = tickTail (frame c (tickMask s) { s with mask := tickMask s }))) := by
  have hi : s.upc = .idle := by
    unfold tick at h
    split at h <;> exact (whenSelected_eq_next h).1
  by_cases hs : s.state = .halted
  · rw [tick_of_halted hi hs] at h
    exact ⟨hi, .inl ⟨hs, (Host.Outcome.next.inj h).symm⟩⟩
  · rw [tick_run hi hs] at h
    exact ⟨hi, .inr ⟨hs, (Host.Outcome.next.inj h).symm⟩⟩

/-- An arm is the tick of the state that selects it (R107). -/
theorem operate_arm {c : Params} {st : SeqState} {s t : State} (h : operate c st.arm s = .next t) :
    tick c s = .next t := by
  cases st <;> (unfold tick; rw [(whenSelected_eq_next h).2.1]; exact h)

/-! ### All an instruction can do -/

/-- All an instruction can do when it answers, under any parameters. -/
theorem operate_next {c : Params} {i : Instr} {s t : State} (h : operate c i s = .next t) :
    (∃ op, objection op s = none ∧ t = act c op s) ∨
    (s.upc = .idle ∧
      (t = s ∨ (∃ r, t = giveBack r s) ∨ t = snapshot c false s ∨ (∃ m, t = finishDrive c (frame c m s)) ∨
        (s.state ≠ .halted ∧ t = tickTail (frame c (tickMask s) { s with mask := tickMask s })))) := by
  have ht : tick c s = .next t → s.upc = .idle ∧ (t = s ∨ (∃ r, t = giveBack r s) ∨ t = snapshot c false s ∨
      (∃ m, t = finishDrive c (frame c m s)) ∨
      (s.state ≠ .halted ∧ t = tickTail (frame c (tickMask s) { s with mask := tickMask s }))) := fun h => by
    obtain ⟨hi, ⟨-, e⟩ | e⟩ := tick_next h
    · exact ⟨hi, .inl e⟩
    · exact ⟨hi, .inr (.inr (.inr (.inr e)))⟩
  have hm : ∀ op, microOp c op s = .next t → ∃ op, objection op s = none ∧ t = act c op s :=
    fun op h => ⟨op, microOp_next h⟩
  cases i with
  | tick a => exact .inr (ht h)
  | tickRampUp => exact .inr (ht (operate_arm (st := .rampUp) h))
  | tickRampDown => exact .inr (ht (operate_arm (st := .rampDown) h))
  | tickAllOn => exact .inr (ht (operate_arm (st := .allOn) h))
  | tickAllOff => exact .inr (ht (operate_arm (st := .allOff) h))
  | tickHaltPending => exact .inr (ht (operate_arm (st := .haltPending) h))
  | tickHalted => exact .inr (ht (operate_arm (st := .halted) h))
  | sample a =>
    obtain ⟨hi, h⟩ := whenIdle_eq_next h
    exact .inr ⟨hi, .inr (.inr (.inl (Host.Outcome.next.inj h).symm))⟩
  | drive m =>
    obtain ⟨hi, h⟩ := whenIdle_eq_next h
    exact .inr ⟨hi, .inr (.inr (.inr (.inl ⟨m, (Host.Outcome.next.inj h).symm⟩)))⟩
  | report r =>
    obtain ⟨hi, h⟩ := whenIdle_eq_next h
    exact .inr ⟨hi, .inr (.inl ⟨_, (Host.Outcome.next.inj h).symm⟩)⟩
  | set l v => exact .inl (hm _ h)
  | get l => exact .inl (hm _ h)
  | wait n => exact .inl (hm (.wait n) h)

/-- All the beginning of an instruction can do when it answers, in the event-by-event view. -/
theorem beginInstr_next {c : Params} {i : Instr} {s t : State} (h : beginInstr c i s = .next t) :
    (∃ op, objection op s = none ∧ t = act c op s) ∨
    (s.upc = .idle ∧
      (t = beginTick s ∨ (∃ m, t = beginDrive m s) ∨ t = beginSample false s ∨ ∃ r, t = giveBack r s)) := by
  have hm : ∀ op, microOp c op s = .next t → ∃ op, objection op s = none ∧ t = act c op s :=
    fun op h => ⟨op, microOp_next h⟩
  have hs : ∀ st, whenSelected st s (.next (beginTick s)) = .next t → s.upc = .idle ∧ t = beginTick s :=
    fun st h => ⟨(whenSelected_eq_next h).1, (Host.Outcome.next.inj (whenSelected_eq_next h).2.2).symm⟩
  cases i with
  | tick a =>
    obtain ⟨hi, h⟩ := whenIdle_eq_next h
    exact .inr ⟨hi, .inl (Host.Outcome.next.inj h).symm⟩
  | sample a =>
    obtain ⟨hi, h⟩ := whenIdle_eq_next h
    exact .inr ⟨hi, .inr (.inr (.inl (Host.Outcome.next.inj h).symm))⟩
  | drive m =>
    obtain ⟨hi, h⟩ := whenIdle_eq_next h
    exact .inr ⟨hi, .inr (.inl ⟨m, (Host.Outcome.next.inj h).symm⟩)⟩
  | report r =>
    obtain ⟨hi, h⟩ := whenIdle_eq_next h
    exact .inr ⟨hi, .inr (.inr (.inr ⟨_, (Host.Outcome.next.inj h).symm⟩))⟩
  | set l v => exact .inl (hm _ h)
  | get l => exact .inl (hm _ h)
  | wait n => exact .inl (hm (.wait n) h)
  | tickRampUp => exact .inr ((hs _ h).imp_right .inl)
  | tickRampDown => exact .inr ((hs _ h).imp_right .inl)
  | tickAllOn => exact .inr ((hs _ h).imp_right .inl)
  | tickAllOff => exact .inr ((hs _ h).imp_right .inl)
  | tickHaltPending => exact .inr ((hs _ h).imp_right .inl)
  | tickHalted => exact .inr ((hs _ h).imp_right .inl)

/-! ### All a step can do -/

/-- What happened before an idle core acted: nothing, or the code on the bench, or else the move, was taken off. -/
def Taken (s s' : State) : Prop :=
  s' = s ∨ (∃ code rest, s.placed = code :: rest ∧ s' = { s with placed := rest }) ∨
    (s.placed = [] ∧ ∃ m rest, s.moves = m :: rest ∧ s' = { s with moves := rest })

theorem Taken.eq {s s' : State} (h : Taken s s') : ∃ codes moves, s' = { s with placed := codes, moves := moves } := by
  obtain rfl | ⟨code, rest, -, rfl⟩ | ⟨-, m, rest, -, rfl⟩ := h
  · exact ⟨_, _, rfl⟩
  · exact ⟨_, _, rfl⟩
  · exact ⟨_, _, rfl⟩

/-- What an idle core can make of the state `u` that is left then, in either view. -/
def Made (c : Params) (u t : State) : Prop :=
  t = u ∨ t = restart u ∨ (∃ r, t = giveBack r u) ∨ (∃ op, objection op u = none ∧ t = act c op u) ∨
    (∃ b, t = snapshot c b u) ∨ (∃ m, t = finishDrive c (frame c m u)) ∨
    (u.state ≠ .halted ∧ t = tickTail (frame c (tickMask u) { u with mask := tickMask u })) ∨
    t = beginTick u ∨ (∃ m, t = beginDrive m u) ∨ ∃ b, t = beginSample b u

/-- All a step can do when it answers, in either view, from every state. -/
theorem advance_next {c : Params} {s t : State} (h : advance c s = .next t) :
    (∃ m k b r, s.upc = .driving m k b ∧ (driveRows c m)[k]? = some r ∧
      t = leaveDriveRow c m k b (runRow c r s)) ∨
    (∃ k b r, s.upc = .sampling k b ∧ (sampleRows c)[k]? = some r ∧ t = leaveSampleRow c k b (runRow c r s)) ∨
    (s.upc = .idle ∧ ∃ u, Taken s u ∧ Made c u t) := by
  cases hu : s.upc with
  | driving m k b =>
    rw [advance_of_running (by simp [hu])] at h
    simp only [microStep, hu] at h
    obtain ⟨r, hr, e⟩ := stepRow_eq_next h
    exact .inl ⟨m, k, b, r, rfl, hr, e⟩
  | sampling k b =>
    rw [advance_of_running (by simp [hu])] at h
    simp only [microStep, hu] at h
    obtain ⟨r, hr, e⟩ := stepRow_eq_next h
    exact .inr (.inl ⟨k, b, r, rfl, hr, e⟩)
  | idle =>
    refine .inr (.inr ⟨rfl, ?_⟩)
    have hi : ∀ (u : State) (i : Instr), Taken s u → runInstr c i u = .next t → ∃ u, Taken s u ∧ Made c u t := by
      intro u i hk h
      refine ⟨u, hk, ?_⟩
      unfold runInstr at h
      split at h
      · rcases operate_next h with ⟨op, e⟩ | ⟨-, e | e | e | e | e⟩
        · exact .inr (.inr (.inr (.inl ⟨op, e⟩)))
        · exact .inl e
        · exact .inr (.inr (.inl e))
        · exact .inr (.inr (.inr (.inr (.inl ⟨_, e⟩))))
        · exact .inr (.inr (.inr (.inr (.inr (.inl e)))))
        · exact .inr (.inr (.inr (.inr (.inr (.inr (.inl e))))))
      · rcases beginInstr_next h with ⟨op, e⟩ | ⟨-, e | e | e | e⟩
        · exact .inr (.inr (.inr (.inl ⟨op, e⟩)))
        · exact .inr (.inr (.inr (.inr (.inr (.inr (.inr (.inl e)))))))
        · exact .inr (.inr (.inr (.inr (.inr (.inr (.inr (.inr (.inl e))))))))
        · exact .inr (.inr (.inr (.inr (.inr (.inr (.inr (.inr (.inr ⟨_, e⟩))))))))
        · exact .inr (.inr (.inl e))
    have hb : ∀ (u : State) (r : Result), Taken s u → (.next (giveBack r u) : Answer) = .next t →
        ∃ u, Taken s u ∧ Made c u t :=
      fun u r hk h => ⟨u, hk, .inr (.inr (.inl ⟨r, (Host.Outcome.next.inj h).symm⟩))⟩
    cases hp : s.placed with
    | cons code rest =>
      rw [advance_of_placed hu hp] at h
      unfold runWord at h
      split at h
      · cases h
      · exact hi _ _ (.inr (.inl ⟨code, rest, hp, rfl⟩)) h
    | nil =>
      cases hm : s.moves with
      | nil =>
        rw [advance_of_nothing hu hp hm] at h
        exact ⟨s, .inl rfl, .inl (Host.Outcome.next.inj h).symm⟩
      | cons mv rest =>
        rw [advance_of_move hu hp hm] at h
        have hk : Taken s { s with moves := rest } := (.inr (.inr ⟨hp, mv, rest, hm, rfl⟩))
        generalize ({ s with moves := rest } : State) = u at h hk
        cases mv with
        | processStart => exact ⟨u, hk, .inr (.inl (Host.Outcome.next.inj h).symm)⟩
        | host call =>
          cases call with
          | tick => exact hi _ _ hk h
          | status =>
            refine ⟨u, hk, ?_⟩
            simp only [runMove, runCall, callStatus] at h
            split at h <;> replace h := (Host.Outcome.next.inj (whenIdle_eq_next h).2).symm
            · exact .inr (.inr (.inr (.inr (.inl ⟨_, h⟩))))
            · exact .inr (.inr (.inr (.inr (.inr (.inr (.inr (.inr (.inr ⟨_, h⟩))))))))
          | readState => exact hb u _ hk h
          | readHalted => exact hb u _ hk h
          | readCommitted =>
            simp only [runMove, runCall, readCommitted] at h
            split at h
            · cases h
            · exact hb u _ hk h
          | readLineLevels =>
            simp only [runMove, runCall, readLineLevels] at h
            split at h
            · exact hb u _ hk h
            · cases h

/-! ### The pin map -/

theorem pinOf_injective (c : Params) {a b : Line} (h : c.pinOf a = c.pinOf b) : a = b := by
  have h := c.pins.injective h
  cases a <;> cases b <;> first | rfl | (revert h; decide)

end Sys2Proof.Machine
end

