-- ==== Sys2Proof/Laws/PerInstr.lean ====
section
/-! SUPPORT. A statement about every instruction as syntax: the code of a well-formed instruction lies in its own row
of spec/opcode_table.json (the row's width, mask and match). -/

namespace Sys2Proof.Laws

/-- How many bits a code has. -/
def codeWidth : Code → Nat
  | .h _ => 10
  | .t _ => 3
  | .u _ => 8

/-- The bits of a code as a number. -/
def codeBits : Code → Nat
  | .h w => w.toNat
  | .t w => w.toNat
  | .u w => w.toNat

/-- Width, mask and match of an instruction's row. -/
def tableRow : Instr → Nat × Nat × Nat
  | .tick _ => (10, 0x300, 0x000)
  | .tickRampUp => (3, 0x7, 0x0)
  | .tickRampDown => (3, 0x7, 0x1)
  | .tickAllOn => (3, 0x7, 0x2)
  | .tickAllOff => (3, 0x7, 0x3)
  | .tickHaltPending => (3, 0x7, 0x4)
  | .tickHalted => (3, 0x7, 0x5)
  | .sample _ => (10, 0x300, 0x100)
  | .drive _ => (10, 0x300, 0x200)
  | .report _ => (10, 0x300, 0x300)
  | .set _ _ => (8, 0xC3, 0x00)
  | .get _ => (8, 0xC7, 0x40)
  | .wait _ => (8, 0xC0, 0x80)

/-- The four high-level operations: the argument leaves the operation select alone. -/
theorem hRow (op : BitVec 2) (arg : Byte) : (op ++ arg).toNat &&& 0x300 = op.toNat * 256 := by
  revert op arg; decide

namespace TableRow

/-- The code of `i` has its row's width, and masked it is the row's match. -/
def Statement (i : Instr) : Prop :=
  i.wellFormed = true →
    codeWidth (encode i) = (tableRow i).1 ∧ codeBits (encode i) &&& (tableRow i).2.1 = (tableRow i).2.2

theorem tick (arg : Byte) : Statement (.tick arg) := fun _ => ⟨rfl, hRow 0b00#2 arg⟩
theorem tickRampUp : Statement .tickRampUp := fun _ => ⟨rfl, rfl⟩
theorem tickRampDown : Statement .tickRampDown := fun _ => ⟨rfl, rfl⟩
theorem tickAllOn : Statement .tickAllOn := fun _ => ⟨rfl, rfl⟩
theorem tickAllOff : Statement .tickAllOff := fun _ => ⟨rfl, rfl⟩
theorem tickHaltPending : Statement .tickHaltPending := fun _ => ⟨rfl, rfl⟩
theorem tickHalted : Statement .tickHalted := fun _ => ⟨rfl, rfl⟩
theorem sample (arg : Byte) : Statement (.sample arg) := fun _ => ⟨rfl, hRow 0b01#2 arg⟩
theorem drive (m : Byte) : Statement (.drive m) := fun _ => ⟨rfl, hRow 0b10#2 m⟩
theorem report (r : Byte) : Statement (.report r) := fun _ => ⟨rfl, hRow 0b11#2 r⟩

theorem set (l : Line) (v : Level) : Statement (.set l v) := by
  intro _
  cases l <;> cases v <;> exact ⟨rfl, rfl⟩

theorem get (l : Line) : Statement (.get l) := by
  intro _
  cases l <;> exact ⟨rfl, rfl⟩

theorem wait (n : Nat) : Statement (.wait n) := by
  intro _
  refine ⟨rfl, ?_⟩
  have h : ∀ x : BitVec 6, (0b10#2 ++ x).toNat &&& 0xC0 = 0x80 := by decide
  exact h (BitVec.ofNat 6 n)

end TableRow

end Sys2Proof.Laws
end

