-- ==== Sys2Proof/Tests/Slice0.lean ====
section
/-! SUPPORT. Tests of the model. Expected results are those of 95_test_vectors.md (V1 to V15) or worked out by hand
from the rule named; then, for every statement with hypotheses, a concrete case that meets them together. -/

namespace Sys2Proof.Tests

open Sys2Proof Sys2Proof.Machine Sys2Proof.Safety

/-! ### Helpers -/

/-- The values of R9 with definite values for what the spec leaves open, so that a test can be evaluated. -/
def bench : Params where
  oeActiveLow := true
  diagReadback := false
  tSetup := 0
  tLatchHold := 5
  tLoadLow := 5
  tClkHalf := 2
  pins := Equiv.refl Nat
  fillBit := fun _ => true
  captureBits := fun _ => 0xFF#8
  undriven := fun _ => 0x00#8

/-- All lines low, `sh` and `lat` at 0x3C (V4), lines 2 and 4 asserted (V9), nothing to come from the outside. -/
def start : State :=
  { State.reset with
    lvl := { oData := false, oClk := false, oLatch := false, oOe := false, iClk := false, iLoad := false }
    sh := 0x3C#8, lat := 0x3C#8, p := 0x80#8, inputs := 0xF5#8, upcoming := [] }

/-- The same with every line high. -/
def startHigh : State :=
  { start with
    lvl := { oData := true, oClk := true, oLatch := true, oOe := true, iClk := true, iLoad := true } }

/-- `start` with the sequencer somewhere. -/
def at3 (st : SeqState) (cursor : BitVec 3) (mask : Byte) : State :=
  { start with state := st, cursor := cursor, mask := mask }

/-- `start` with moves to come. -/
def calling (moves : List Move) : State := { start with moves := moves }

/-- `start` with codes on the bench. -/
def placing (codes : List Code) : State := { start with placed := codes }

/-- The same in the event-by-event view. -/
def byEvent (s : State) : State := { s with grain := .event }

/-- `start` in the middle of a `DRIVE`. -/
def driving (m : Byte) (k : Nat) (byTick : Bool) : State := { start with upc := .driving m k byTick }

/-- `start` in the middle of a `SAMPLE`, the load line high. -/
def sampling (k : Nat) : State :=
  { start with upc := .sampling k false, lvl := { start.lvl with iLoad := true } }

/-- A view of the next state, where there is one. -/
def view (f : State → α) (o : Answer) : Option α :=
  match o with
  | .next t => some (f t)
  | .fault _ => none
  | .refused _ => none

/-- The trace as bytes of format U (R62). -/
def bytes (s : State) : List (BitVec 8) :=
  s.trace.map fun e =>
    match e with
    | .write l v => 0b00#2 ++ l.index ++ Level.bit v ++ 0b00#2
    | .read l _ => 0b01#2 ++ l.index ++ 0b000#3
    | .delay n => 0b10#2 ++ BitVec.ofNat 6 n

/-- The sequencer's registers and what was driven last. -/
def seqView (s : State) : SeqState × BitVec 3 × Byte × Option Byte × Nat :=
  (s.state, s.cursor, s.mask, s.committed, s.trace.length)

/-! ### Well-formed terms (R62, R70, R77, R78) -/

theorem test_wellFormed_refuses_set_on_input : (Instr.set .iData true).wellFormed = false := by decide
theorem test_wellFormed_refuses_get_of_input_clock : (Instr.get .iClk).wellFormed = false := by decide
theorem test_wellFormed_refuses_get_of_load : (Instr.get .iLoad).wellFormed = false := by decide
theorem test_wellFormed_refuses_wait_of_seven_bits : (Instr.wait 64).wellFormed = false := by decide

/-! ### Decoding, each word written out from the tables of R60, R61, R62 (V1, V2, section 3) -/

theorem test_decode_set :
    decode (.u 0b00_000_0_00#8) = .ok (.set .oData false) ∧ decode (.u 0b00_001_1_00#8) = .ok (.set .oClk true) ∧
    decode (.u 0b00_010_1_00#8) = .ok (.set .oLatch true) ∧ decode (.u 0b00_011_0_00#8) = .ok (.set .oOe false) ∧
    decode (.u 0b00_101_0_00#8) = .ok (.set .iClk false) ∧ decode (.u 0b00_110_1_00#8) = .ok (.set .iLoad true) := by
  decide

theorem test_decode_get :
    decode (.u 0b01_000_000#8) = .ok (.get .oData) ∧ decode (.u 0b01_001_000#8) = .ok (.get .oClk) ∧
    decode (.u 0b01_010_000#8) = .ok (.get .oLatch) ∧ decode (.u 0b01_011_000#8) = .ok (.get .oOe) ∧
    decode (.u 0b01_100_000#8) = .ok (.get .iData) := by decide

theorem test_decode_wait :
    decode (.u 0b10_000010#8) = .ok (.wait 2) ∧ decode (.u 0b10_000000#8) = .ok (.wait 0) ∧
    decode (.u 0b10_111111#8) = .ok (.wait 63) := by decide

theorem test_decode_operation_words :
    decode (.h 0b00_11111111#10) = .ok (.tick 0xFF#8) ∧ decode (.h 0b01_00000000#10) = .ok (.sample 0x00#8) ∧
    decode (.h 0b10_10000001#10) = .ok (.drive 0x81#8) ∧ decode (.h 0b11_11111110#10) = .ok (.report 0xFE#8) := by
  decide

theorem test_decode_state_codes :
    decode (.t 0b000#3) = .ok .tickRampUp ∧ decode (.t 0b001#3) = .ok .tickRampDown ∧
    decode (.t 0b010#3) = .ok .tickAllOn ∧ decode (.t 0b011#3) = .ok .tickAllOff ∧
    decode (.t 0b100#3) = .ok .tickHaltPending ∧ decode (.t 0b101#3) = .ok .tickHalted := by decide

theorem test_decode_refuses :
    decode (.t 0b110#3) = .error .reservedState ∧ decode (.u 0x20#8) = .error .setOnInput ∧
    decode (.u 0x3C#8) = .error .setNoLine ∧ decode (.u 0x01#8) = .error .setReservedBits ∧
    decode (.u 0x68#8) = .error .getUnusedLine ∧ decode (.u 0x44#8) = .error .getReservedBits ∧
    decode (.u 0xC0#8) = .error .reservedKind := by decide

theorem test_table_words :
    decodeTableWord 16 0x2A5 = some (.drive 0xA5#8) ∧ decodeTableWord 8 0x05 = some .tickHalted ∧
    decodeTableWord 8 0x14 = some (.set .oLatch true) ∧ decodeTableWord 8 0x85 = some (.wait 5) ∧
    decodeTableWord 16 0x400 = none ∧ decodeTableWord 8 0xC0 = none := by decide

theorem test_fetch_word_runs :
    view (fun t => t.trace) (step (start.withFetchWord 8 0x14)) = some [.write .oLatch true] ∧
    view (fun t => t.state) (advance bench (start.withFetchWord 8 0x01)) = some .allOn ∧
    view (fun t => t.committed) (advance bench (start.withFetchWord 16 0x281)) = some (some 0x81#8) := by decide +kernel

/-- A frame answers whatever the open parameters of the board are. -/
theorem test_fetch_word_answers : ∃ t, step (State.reset.withFetchWord 16 0x281) = .next t := ⟨_, rfl⟩

/-! ### One instruction at a time -/

/-- V3: a rising edge shifts a 0 in; high again over high is no edge. -/
theorem test_set_clock_edge :
    view State.sh (exec (.set .oClk true) start) = some 0x78#8 ∧
    view State.sh (exec (.set .oClk true) startHigh) = some 0x3C#8 := by decide +kernel

/-- V12: line 1 moves in the pulse, and only 0xFF and 0xFE can be caught, whatever the free bits. -/
theorem test_set_load_captures :
    (act bench (.set .iLoad true)
      { start with pulse := some (.starting 0xFF#8), upcoming := [[0xFE#8]] }).p = 0xFF#8 ∧
    (act { bench with captureBits := fun _ => 0x00#8 } (.set .iLoad true)
      { start with pulse := some (.starting 0xFF#8), upcoming := [[0xFE#8]] }).p = 0xFE#8 := by decide +kernel

/-- R77: line 1 goes low in the pulse, then a second `SET I_LOAD,0` makes no edge, so what the line was before it
still counts, and bit 0 is free. -/
theorem test_set_load_twice :
    (runRows bench [plain (.set .iLoad false), plain (.set .iLoad false), plain (.set .iLoad true)]
      { startHigh with inputs := 0xFF#8, upcoming := [[], [0xFE#8]] }).p = 0xFF#8 ∧
    (runRows { bench with captureBits := fun _ => 0x00#8 }
      [plain (.set .iLoad false), plain (.set .iLoad false), plain (.set .iLoad true)]
      { startHigh with inputs := 0xFF#8, upcoming := [[], [0xFE#8]] }).p = 0xFE#8 := by decide +kernel

/-- R78, its example: `p = 0x80` reads 1. -/
theorem test_get_input : view State.trace (exec (.get .iData) start) = some [.read .iData true] := by decide +kernel

/-- R79, its example, and `WAIT 0` (R70). -/
theorem test_wait : view bytes (exec (.wait 5) start) = some [0x85#8] ∧
    view bytes (exec (.wait 0) start) = some [0x80#8] := by decide +kernel

/-- V4: the byte string of `DRIVE(0xA5)`, and its end state. -/
theorem test_drive_trace :
    view bytes (drive bench 0xA5#8 start) = some
      ([0x18#8, 0x10#8, 0x08#8, 0x04#8, 0x0C#8, 0x08#8, 0x00#8, 0x0C#8, 0x08#8, 0x04#8, 0x0C#8]
        ++ [0x08#8, 0x00#8, 0x0C#8, 0x08#8, 0x00#8, 0x0C#8, 0x08#8, 0x04#8, 0x0C#8]
        ++ [0x08#8, 0x00#8, 0x0C#8, 0x08#8, 0x04#8, 0x0C#8, 0x14#8, 0x85#8]) := by decide +kernel

/-- V7: the read-back of `DRIVE(0x80)` is 0, 1, 1, 0. -/
theorem test_drive_readback :
    view State.results (drive { bench with diagReadback := true } 0x80#8 startHigh) =
      some [.lineLevels false true true false] := by decide +kernel

/-- V9: the result and the byte string of `SAMPLE()` with `IN = 0xF5`. -/
theorem test_sample :
    view State.results (sample bench start) = some [.snapshot 0xF5#8] ∧
    view (fun t => (bytes t).take 8) (sample bench start) =
      some [0x30#8, 0x85#8, 0x34#8, 0x28#8, 0x82#8, 0x60#8, 0x2C#8, 0x82#8] := by decide +kernel

/-- V11: a second sample, the clock high from the first, returns the same, not 0xB4 or 0xB5. -/
theorem test_sample_again :
    view State.results (sample bench { startHigh with inputs := 0x5A#8, p := 0x00#8 }) =
      some [.snapshot 0x5A#8] := by decide +kernel

/-- V13: the pattern is bit 0 first. -/
theorem test_report_pattern :
    displayPattern 0xFE#8 = ['1', '0', '0', '0', '0', '0', '0', '0'] ∧
    displayPattern 0xF5#8 = ['0', '1', '0', '1', '0', '0', '0', '0'] := by decide

/-- V13: the first two records of `r = 0xFE`. -/
theorem test_report_records :
    (lineRecords 0xFE#8).take 2 =
      [{ line := 1, raw := false, logical := true }, { line := 2, raw := true, logical := false }] := by decide

/-- V14, RAMP_UP: inside the ramp, and its exit. -/
theorem test_tickRampUp : view seqView (tickRampUp bench (at3 .rampUp 6#3 0x3F#8)) =
    some (.rampUp, 7#3, 0x7F#8, some 0x7F#8, 28) := by decide +kernel

theorem test_tickRampUp_exit : view seqView (tickRampUp bench (at3 .rampUp 7#3 0x7F#8)) =
    some (.rampDown, 7#3, 0xFF#8, some 0xFF#8, 28) := by decide +kernel

/-- V14, RAMP_DOWN: inside the ramp, and its exit. -/
theorem test_tickRampDown : view seqView (tickRampDown bench (at3 .rampDown 1#3 0x03#8)) =
    some (.rampDown, 0#3, 0x01#8, some 0x01#8, 28) := by decide +kernel

theorem test_tickRampDown_exit : view seqView (tickRampDown bench (at3 .rampDown 0#3 0x01#8)) =
    some (.allOn, 0#3, 0x00#8, some 0x00#8, 28) := by decide +kernel

/-- V14, ALL_ON. -/
theorem test_tickAllOn : view seqView (tickAllOn bench (at3 .allOn 0#3 0x00#8)) =
    some (.allOff, 0#3, 0xFF#8, some 0xFF#8, 28) := by decide +kernel

/-- V14, ALL_OFF. -/
theorem test_tickAllOff : view seqView (tickAllOff bench (at3 .allOff 0#3 0xFF#8)) =
    some (.haltPending, 0#3, 0x00#8, some 0x00#8, 28) := by decide +kernel

/-- V14, HALT_PENDING: the frame is sent. -/
theorem test_tickHaltPending : view seqView (tickHaltPending bench (at3 .haltPending 0#3 0x00#8)) =
    some (.halted, 0#3, 0x00#8, some 0x00#8, 28) := by decide +kernel

/-- V14, HALTED: zero events. -/
theorem test_tickHalted : view seqView (exec .tickHalted (at3 .halted 0#3 0x00#8)) =
    some (.halted, 0#3, 0x00#8, none, 0) := by decide +kernel

/-- V14, the first tick after reset, through the dispatch on `state`. -/
theorem test_tick_first : view seqView (operate bench (.tick 0xFF#8) start) =
    some (.rampUp, 1#3, 0x01#8, some 0x01#8, 28) := by decide +kernel

/-- R131, V4: relays 1, 3, 6 and 8 are on after `DRIVE(0xA5)`. -/
theorem test_relays : view (relays bench) (drive bench 0xA5#8 start) = some 0xA5#8 := by decide +kernel

/-! ### A case for the hypotheses of each statement -/

theorem witness_DecodeEncodeRoundTrip :
    (Instr.wait 63).wellFormed = true ∧ (Instr.set .iLoad true).wellFormed = true ∧
    (Instr.get .iData).wellFormed = true ∧ (Instr.drive 0xFF#8).wellFormed = true := by decide

theorem witness_EncodeDecodeRoundTrip :
    decode (.u 0xBF#8) = .ok (.wait 63) ∧ decode (.h 0x3FF#10) = .ok (.report 0xFF#8) ∧
    decode (.t 5#3) = .ok .tickHalted := by decide

theorem witness_ReservedSpellingsRefused :
    6 ≤ (6#3 : BitVec 3).toNat ∧ 6 ≤ (7#3 : BitVec 3).toNat ∧ (1#2 : BitVec 2) ≠ 0#2 ∧ (3#2 : BitVec 2) ≠ 0#2 ∧
    (1#3 : BitVec 3) ≠ 0#3 ∧ (7#3 : BitVec 3) ≠ 0#3 ∧ 5 ≤ (5#3 : BitVec 3).toNat ∧ 5 ≤ (7#3 : BitVec 3).toNat := by
  decide

theorem witness_StepRunsDecodedInstruction :
    ((placing [.h 0x2A5#10, .t 5#3]).upc = .idle ∧ (placing [.h 0x2A5#10, .t 5#3]).grain = .operation ∧
      (placing [.h 0x2A5#10, .t 5#3]).placed = .h 0x2A5#10 :: [.t 5#3] ∧ decode (.h 0x2A5#10) = .ok (.drive 0xA5#8)) ∧
    ((calling [.host .tick, .host .status]).upc = .idle ∧
      (calling [.host .tick, .host .status]).grain = .operation ∧
      (calling [.host .tick, .host .status]).placed = [] ∧
      (calling [.host .tick, .host .status]).moves = .host .tick :: [.host .status]) := by decide

theorem witness_StepRefusesReservedWord :
    (placing [.u 0x20#8]).upc = .idle ∧ (placing [.u 0x20#8]).placed = .u 0x20#8 :: [] ∧
    decode (.u 0x20#8) = .error .setOnInput := by decide

theorem witness_StepWaitsWithoutCall : start.upc = .idle ∧ start.placed = [] ∧ start.moves = [] := by decide

theorem witness_EventViewBeginsAndGoesOn :
    (byEvent (calling [.host .tick])).upc = .idle ∧ (byEvent (calling [.host .tick])).grain = .event ∧
    (byEvent (calling [.host .tick])).placed = [] ∧ (byEvent (calling [.host .tick])).moves = .host .tick :: [] ∧
    (byEvent (calling [.host .status, .host .tick])).moves = .host .status :: [.host .tick] ∧
    (byEvent (placing [.h (0b00#2 ++ 0xFF#8)])).placed = .h (0b00#2 ++ 0xFF#8) :: [] ∧
    (byEvent (placing [.h (0b01#2 ++ 0x00#8)])).placed = .h (0b01#2 ++ 0x00#8) :: [] ∧
    (byEvent (placing [.h (0b10#2 ++ 0x81#8)])).placed = .h (0b10#2 ++ 0x81#8) :: [] ∧
    (byEvent (placing [.u 0x85#8])).placed = .u 0x85#8 :: [] ∧ decode (.u 0x85#8) = .ok (.wait 5) ∧
    (driving 0x01#8 27 true).upc ≠ .idle := by decide

/-- The boundary: a rising clock edge, allowed because `I_LOAD` is high; and a rising edge of `O_CLK`. -/
theorem witness_SetWritesItsLine :
    Line.iClk ≠ .iData ∧ (sampling 3).lvl.iClk = false ∧
    ¬ (Line.iClk = .iClk ∧ true = true ∧ (sampling 3).lvl.iClk = false ∧ (sampling 3).lvl.iLoad = false) ∧
    Line.oClk ≠ .iData ∧
    ¬ (Line.oClk = .iClk ∧ true = true ∧ start.lvl.iClk = false ∧ start.lvl.iLoad = false) := by decide

theorem witness_OutputClockShifts : start.lvl.oClk = false ∧ 6 < 7 := by decide

theorem witness_OutputLatchTransfers :
    start.lvl.oLatch = false ∧ startHigh.lvl.oLatch = true ∧
    (Line.oClk ≠ .oLatch ∧ ∃ t, exec (.set .oClk true) start = .next t) ∧ (∃ t, exec (.get .iData) start = .next t) ∧
    ∃ t, exec (.wait 5) start = .next t :=
  ⟨rfl, rfl, ⟨by decide, _, rfl⟩, ⟨_, rfl⟩, ⟨_, rfl⟩⟩

theorem witness_InputClockShifts : (sampling 3).lvl.iClk = false ∧ (sampling 3).lvl.iLoad = true ∧ 6 < 7 := by decide

/-- A pulse that has seen both levels of line 1. -/
def inPulse : State := { start with pulse := some { low := 0x0B#8, high := 0xF5#8 } }

theorem inPulse_known : PulseKnown inPulse := by
  rintro q ⟨⟩
  exact ⟨rfl, rfl⟩

theorem witness_LoadPulseCaptures :
    start.pulse = none ∧ inPulse.pulse = some { low := 0x0B#8, high := 0xF5#8 } ∧ PulseKnown inPulse ∧ 0 < 8 ∧ 7 < 8 :=
  ⟨rfl, rfl, inPulse_known, by decide, by decide⟩

theorem witness_RefusedLineAccesses : start.lvl.iClk = false ∧ start.lvl.iLoad = false := by decide

theorem witness_DriveSendsTheFrame :
    start.upc = .idle ∧ startHigh.upc = .idle ∧ bench.tSetup = 0 ∧ bench.tLatchHold = 5 ∧ bench.diagReadback = false :=
  ⟨rfl, rfl, rfl, rfl, rfl⟩

theorem witness_DriveSetsTheRelays : startHigh.upc = .idle ∧ startHigh.lat = 0x3C#8 := by decide

theorem witness_DriveRoundTripAndBitOrder : start.upc = .idle ∧ 0 < 8 ∧ 7 < 8 := by decide

theorem witness_DriveOnEveryBoard : startHigh.upc = .idle := by decide

theorem witness_DriveReadsBackItsLines :
    start.upc = .idle ∧ ({ bench with diagReadback := true } : Params).diagReadback = true := ⟨rfl, rfl⟩

theorem witness_DriveAgainChangesNoRelay : ∃ t, exec (.drive 0x00#8) start = .next t := ⟨_, rfl⟩

theorem start_known : PulseKnown start := by rintro q ⟨⟩

/-- With no pulse open, and with one open. -/
theorem witness_SampleReturnsTheCapture :
    start.upc = .idle ∧ PulseKnown start ∧ inPulse.upc = .idle ∧ PulseKnown inPulse :=
  ⟨rfl, start_known, rfl, inPulse_known⟩

/-- Lines that move before the pulse, hold through it and move after it. -/
def aroundPulse : State := { start with upcoming := [[0x00#8, 0xF5#8], [], [0xF5#8], [0x00#8]] }

theorem start_steady (v : Byte) : PulseSteady start v := by rintro q ⟨⟩

theorem witness_SampleOfStableInputs :
    aroundPulse.upc = .idle ∧ (∀ x ∈ pulseLevels aroundPulse, x = 0xF5#8) ∧ PulseSteady aroundPulse 0xF5#8 :=
  ⟨rfl, by decide, by rintro q ⟨⟩⟩

theorem witness_SampleRepeats : start.upc = .idle ∧ start.upcoming = [] ∧ PulseSteady start start.inputs :=
  ⟨rfl, rfl, start_steady _⟩

theorem witness_ReportShowsTheComplement : start.upc = .idle ∧ 0 < 8 ∧ 7 < 8 := by decide

theorem witness_ReportListsEveryLine : startHigh.upc = .idle ∧ 0 < 8 ∧ 7 < 8 := by decide

theorem witness_StatusIsSampleThenReport :
    (calling [.host .status, .host .readState]).upc = .idle ∧
    (calling [.host .status, .host .readState]).grain = .operation ∧
    (calling [.host .status, .host .readState]).placed = [] ∧
    (calling [.host .status, .host .readState]).moves = .host .status :: [.host .readState] := by decide

/-- Both clauses on the cursor: the last value and one before it. -/
theorem witness_TickRampUpSetsOneRelay :
    (at3 .rampUp 7#3 0x7F#8).upc = .idle ∧ (at3 .rampUp 7#3 0x7F#8).state = .rampUp ∧
    (at3 .rampUp 7#3 0x7F#8).cursor = 7#3 ∧ (at3 .rampUp 6#3 0x3F#8).state = .rampUp ∧
    (at3 .rampUp 6#3 0x3F#8).cursor ≠ 7#3 := by decide

theorem witness_TickRampDownClearsOneRelay :
    (at3 .rampDown 0#3 0x01#8).upc = .idle ∧ (at3 .rampDown 0#3 0x01#8).state = .rampDown ∧
    (at3 .rampDown 0#3 0x01#8).cursor = 0#3 ∧ (at3 .rampDown 1#3 0x03#8).state = .rampDown ∧
    (at3 .rampDown 1#3 0x03#8).cursor ≠ 0#3 := by decide

theorem witness_TickAllOnThenAllOff :
    (at3 .allOn 0#3 0x00#8).upc = .idle ∧ (at3 .allOn 0#3 0x00#8).state = .allOn ∧
    (at3 .allOff 0#3 0xFF#8).upc = .idle ∧ (at3 .allOff 0#3 0xFF#8).state = .allOff := by decide

theorem witness_TickHaltPendingSendsLastFrame :
    (at3 .haltPending 0#3 0x00#8).upc = .idle ∧ (at3 .haltPending 0#3 0x00#8).state = .haltPending := by decide

theorem witness_TickHaltedIsInert :
    (at3 .halted 0#3 0x00#8).upc = .idle ∧ (at3 .halted 0#3 0x00#8).state = .halted := by decide

theorem witness_TickRunsTheSelectedArm :
    (at3 .halted 0#3 0x00#8).upc = .idle ∧ SeqState.haltPending ≠ (at3 .halted 0#3 0x00#8).state := by decide

/-- Both clauses: a tick that answers, and a second machine that differs in everything but the sequencer. -/
theorem witness_TickPathIsFixed :
    (∃ t, exec (.tick 0x00#8) start = .next t) ∧ start.upc = .idle ∧
    ({ startHigh with committed := some 0xFF#8, sh := 0xFF#8 } : State).upc = .idle ∧
    SameSequencer start { startHigh with committed := some 0xFF#8, sh := 0xFF#8 } :=
  ⟨⟨_, rfl⟩, rfl, rfl, rfl, rfl, rfl⟩

/-- The ends of the table: before the first tick, before the last that drives, and HALTED. -/
theorem witness_TickFollowsTheRunTable :
    (start.upc = .idle ∧ AfterTicks 0 start ∧ drivenMasks[0]? = some 0x01#8) ∧
    (AfterTicks 18 (at3 .haltPending 0#3 0x00#8) ∧ drivenMasks[18]? = some 0x00#8) ∧
    (AfterTicks 19 (at3 .halted 0#3 0x00#8) ∧ 19 ≤ 19) := by
  unfold AfterTicks
  decide

/-- A `STATUS`, then nineteen `TICK`. -/
def wholeRun : State := calling (.host .status :: List.replicate 19 (.host .tick))

theorem witness_RunReachesHaltedUnderAnyInterleaving :
    wholeRun.upc = .idle ∧ wholeRun.grain = .operation ∧ BenchEmpty wholeRun ∧ AfterTicks 0 wholeRun ∧
    OnlyTickOrStatus wholeRun.moves ∧ 19 ≤ tickCount wholeRun.moves := by
  unfold BenchEmpty AfterTicks OnlyTickOrStatus
  decide +kernel

/-! States inside a frame. The read-back of this board is open, so which micro-step is the last depends on it, and the
proofs use `driveLength`. -/

/-- A step inside a frame answers. -/
theorem step_answers {s : State} {m : Byte} {k : Nat} {b : Bool} (hu : s.upc = .driving m k b)
    (hk : k < driveLength Config.board) : ∃ t, step s = .next t := by
  obtain ⟨r, -, h⟩ := microStep_driving hu hk
  exact ⟨_, (advance_of_running (by simp [hu])).trans h⟩

theorem latchStep_lt : latchStep Config.board + 1 < driveLength Config.board := by unfold driveLength; omega

theorem latchStep_ge : 26 ≤ latchStep Config.board := Nat.le_refl 26

/-- The tick that follows a committed 0x01 (V14), before its first event. -/
def frameStart : State :=
  { start with
    upc := .driving 0x03#8 0 true, mask := 0x03#8, cursor := 1#3, committed := some 0x01#8, lat := 0x01#8, sh := 0x01#8
    moves := [.host .tick], grain := .event, lvl := { start.lvl with oLatch := true, oClk := true } }

/-- The same frame when the clock of its first slot is low. -/
def inFrame : State :=
  { frameStart with upc := .driving 0x03#8 3 true, lvl := { frameStart.lvl with oLatch := false, oClk := false } }

/-- The same frame one event before the latch goes high. -/
def beforeLatch : State :=
  { inFrame with
    upc := .driving 0x03#8 (latchStep Config.board) true, sh := 0x03#8
    lvl := { inFrame.lvl with oClk := true, oData := true } }

/-- The last event of the frame: the next step ends the tick. -/
def frameEnd : State :=
  { beforeLatch with
    upc := .driving 0x03#8 (driveLength Config.board - 1) true, lat := 0x03#8, committed := some 0x03#8 }

/-- HALTED, with a `STATUS` to come. -/
def haltedCalling : State :=
  { start with state := .halted, cursor := 0#3, mask := 0x00#8, moves := [.host .status], grain := .event }

theorem shows_first (s : State) (hc : s.committed = some 0x01#8) (hl : s.lat = 0x01#8) (ho : s.lvl.oOe = false) :
    ShowsCommitted s := by
  intro m hm
  rw [hc] at hm
  exact ⟨hl.trans (Option.some.inj hm), ho⟩

theorem frameStart_inv : OutputInv frameStart := by
  have h1 := latchStep_lt
  exact ⟨rfl, by omega, fun _ => rfl, fun h => absurd h (by decide), fun i hi => by simp [slotsDone] at hi,
    fun h => absurd h (by decide), fun h => absurd h (by decide), fun _ => shows_first _ rfl rfl rfl, by omega⟩

theorem inFrame_inv : OutputInv inFrame := by
  have h1 := latchStep_lt
  have h2 := latchStep_ge
  have hd : slotsDone 3 = 0 := rfl
  have hr : (3 - 2) % slotLength Config.board = 1 := rfl
  refine ⟨rfl, by omega, fun _ => rfl, fun _ _ => rfl, fun i hi => ?_, fun _ _ _ => rfl, fun _ _ h => ?_,
    fun _ => shows_first _ rfl rfl rfl, by omega⟩
  · rw [hd] at hi; omega
  · rw [hr] at h; omega

theorem beforeLatch_inv : OutputInv beforeLatch := by
  have h1 := latchStep_lt
  have hd : slotsDone (latchStep Config.board) = 8 := rfl
  refine ⟨rfl, by omega, fun _ => rfl, fun _ _ => rfl, fun i hi => ?_, by omega, by omega,
    fun _ => shows_first _ rfl rfl rfl, by omega⟩
  rw [hd]
  show (0x03#8).getLsbD i = (0x03#8).getLsbD (8 - 8 + i)
  rw [Nat.sub_self, Nat.zero_add]

theorem witness_SequencerInvariantKept : SequencerInv inFrame ∧ ∃ t, step inFrame = .next t :=
  ⟨⟨rfl, rfl, by decide, rfl, by decide⟩, step_answers rfl (by have := latchStep_lt; have := latchStep_ge; omega)⟩

/-- The same idle: the call begins the tick's frame; and a start of the process. -/
theorem witness_SequencerInvariantKept_idle :
    (SequencerInv haltedCalling ∧ ∃ t, step haltedCalling = .next t) ∧
    SequencerInv { haltedCalling with moves := [.processStart] } ∧
    ∃ t, step { haltedCalling with moves := [.processStart] } = .next t :=
  ⟨⟨⟨rfl, rfl⟩, _, rfl⟩, ⟨rfl, rfl⟩, _, rfl⟩

/-- A second `SET I_LOAD,0` on the bench, with a pulse open. -/
theorem witness_PulseLevelsStayKnown :
    PulseKnown { inPulse with placed := [.u 0x30#8] } ∧ ∃ t, step { inPulse with placed := [.u 0x30#8] } = .next t :=
  ⟨inPulse_known, _, rfl⟩

theorem witness_CommittedInvariantKept : CommittedInv frameEnd ∧ ∃ t, step frameEnd = .next t := by
  have h := latchStep_lt
  exact ⟨⟨rfl, rfl, by omega, rfl, fun _ => rfl⟩, step_answers rfl (by omega)⟩

theorem witness_StateNeverDecreases :
    BenchEmpty frameEnd ∧ NoStartNext frameEnd ∧ ∃ t, step frameEnd = .next t :=
  ⟨rfl, by simp [NoStartNext, frameEnd, beforeLatch, inFrame, frameStart],
    step_answers rfl (by have := latchStep_lt; omega)⟩

/-- Each clause: a call of the host, a running `DRIVE`, a running `SAMPLE`. -/
theorem witness_EveryRegisterHasOneOwner :
    (haltedCalling.upc = .idle ∧ BenchEmpty haltedCalling ∧ haltedCalling.moves = .host .status :: [] ∧
      Call.status ≠ .tick ∧ ∃ t, step haltedCalling = .next t) ∧
    ((calling [.host .tick]).upc = .idle ∧ BenchEmpty (calling [.host .tick]) ∧
      (calling [.host .tick]).moves = .host .tick :: [] ∧ Call.tick ≠ .status ∧
      ∃ t, step (calling [.host .tick]) = .next t) ∧
    (inFrame.upc = .driving 0x03#8 3 true ∧ ∃ t, step inFrame = .next t) ∧
    ((sampling 42).upc = .sampling 42 false ∧ ∃ t, step (sampling 42) = .next t) :=
  ⟨⟨rfl, rfl, rfl, by decide, _, rfl⟩, ⟨rfl, rfl, rfl, by decide, _, rfl⟩,
    ⟨rfl, step_answers rfl (by have := latchStep_lt; have := latchStep_ge; omega)⟩, rfl, _, rfl⟩

theorem witness_OutputInvariantKept : OutputInv inFrame ∧ ∃ t, step inFrame = .next t :=
  ⟨inFrame_inv, step_answers rfl (by have := latchStep_lt; have := latchStep_ge; omega)⟩

/-- Each clause: the first event with a mask committed, an event of a slot, and the event that raises the latch. -/
theorem witness_RelaysChangeOnlyAtTheLatch :
    (OutputInv frameStart ∧ frameStart.upc = .driving 0x03#8 0 true ∧ 0 ≠ latchStep Config.board ∧
      frameStart.committed ≠ none ∧ ∃ t, step frameStart = .next t) ∧
    (OutputInv inFrame ∧ inFrame.upc = .driving 0x03#8 3 true ∧ 3 ≠ latchStep Config.board ∧ 1 ≤ 3 ∧
      ∃ t, step inFrame = .next t) ∧
    (OutputInv beforeLatch ∧ beforeLatch.upc = .driving 0x03#8 (latchStep Config.board) true ∧
      ∃ t, step beforeLatch = .next t) := by
  have h1 := latchStep_lt
  have h2 := latchStep_ge
  exact ⟨⟨frameStart_inv, rfl, by omega, by decide, step_answers rfl (by omega)⟩,
    ⟨inFrame_inv, rfl, by omega, by decide, step_answers rfl (by omega)⟩,
    beforeLatch_inv, rfl, step_answers rfl (by omega)⟩

theorem witness_OutputsStayEnabled :
    BenchEmpty inFrame ∧ inFrame.lvl.oOe = Config.board.oeOn ∧ (∃ t, step inFrame = .next t) ∧ start.upc = .idle :=
  ⟨rfl, rfl, step_answers rfl (by have := latchStep_lt; have := latchStep_ge; omega), rfl⟩

/-- The last micro-step of a `SAMPLE`, and one of a `DRIVE`. -/
theorem witness_RunningOperationNeverStops :
    (RunningInv (sampling 42) ∧ (sampling 42).upc ≠ .idle ∧ ∃ t, step (sampling 42) = .next t) ∧
    RunningInv frameEnd ∧ frameEnd.upc ≠ .idle :=
  ⟨⟨⟨by decide, fun _ => rfl⟩, by decide, _, rfl⟩,
    show driveLength Config.board - 1 < driveLength Config.board by have := latchStep_lt; omega,
    by simp [frameEnd]⟩

theorem witness_MicroStepsCountUp :
    (driving 0x01#8 27 false).upc = .driving 0x01#8 27 false ∧ 27 < driveLength Config.board ∧
    (driving 0x01#8 0 true).upc = .driving 0x01#8 0 true ∧ (sampling 42).upc = .sampling 42 false ∧
    RunningInv (sampling 42) ∧ (sampling 0).upc = .sampling 0 false ∧ RunningInv (sampling 0) :=
  ⟨rfl, by have := latchStep_lt; have := latchStep_ge; omega, rfl, rfl, ⟨by decide, fun _ => rfl⟩, rfl,
    ⟨by decide, fun _ => rfl⟩⟩

theorem witness_HaltedWritesNoOutputLine :
    BenchEmpty haltedCalling ∧ NoStartNext haltedCalling ∧ haltedCalling.state = .halted ∧
    (∀ m k b, haltedCalling.upc ≠ .driving m k b) ∧ ∃ t, step haltedCalling = .next t :=
  ⟨rfl, by simp [NoStartNext, haltedCalling], rfl, fun m k b => by simp [haltedCalling, start, State.reset], _, rfl⟩

theorem witness_SteppedDriveIsDrive : start.upc = .idle := by decide

theorem witness_SteppedSampleIsSample : startHigh.upc = .idle := by decide

theorem witness_SteppedTickIsTick :
    (at3 .haltPending 0#3 0x00#8).upc = .idle ∧ (at3 .haltPending 0#3 0x00#8).state ≠ .halted := by decide

/-- Each clause at the ends of its range, with three and with four micro-steps a slot. -/
theorem witness_BitIndexCountsDown :
    bitidx bench (driving 0x01#8 2 true) = some 7#3 ∧ bitidx bench (driving 0x01#8 25 true) = some 0#3 ∧
    bitidx { bench with tSetup := 1 } (driving 0x01#8 5 true) = some 7#3 ∧
    bitidx { bench with tSetup := 1 } (driving 0x01#8 33 true) = some 0#3 ∧
    bitidx bench (driving 0x01#8 1 true) = none ∧ bitidx bench (driving 0x01#8 26 true) = none ∧
    bitidx bench (sampling 3) = some 7#3 ∧ bitidx bench (sampling 42) = some 0#3 ∧
    bitidx bench (sampling 2) = none ∧ bitidx bench (sampling 43) = none := by decide

theorem witness_NothingBeginsWhileRunning : (driving 0x01#8 0 true).upc ≠ .idle ∧ (sampling 42).upc ≠ .idle := by
  decide

theorem witness_TickAndStatusCommute :
    start.upc = .idle ∧ start.grain = .operation ∧ BenchEmpty start ∧ start.upcoming = [] ∧
    PulseSteady start start.inputs :=
  ⟨rfl, rfl, rfl, rfl, start_steady _⟩

/-- `start` with one read of the host to come, a mask committed. -/
def reading (call : Call) : State := { calling [.host call] with committed := some 0xA5#8 }

theorem witness_HostReadsOfIdleCore :
    (reading .readState).upc = .idle ∧ BenchEmpty (reading .readState) ∧
    (reading .readState).moves = .host .readState :: [] ∧ (reading .readHalted).moves = .host .readHalted :: [] ∧
    (reading .readCommitted).moves = .host .readCommitted :: [] ∧
    (reading .readCommitted).committed = some 0xA5#8 ∧ (calling [.host .readCommitted]).committed = none ∧
    (reading .readLineLevels).moves = .host .readLineLevels :: [] ∧ bench.diagReadback = false ∧
    ({ bench with diagReadback := true } : Params).diagReadback = true :=
  ⟨rfl, rfl, rfl, rfl, rfl, rfl, rfl, rfl, rfl, rfl⟩

theorem witness_RestartKeepsLinesAndDevices :
    ({ at3 .halted 0#3 0x00#8 with moves := [.processStart] } : State).upc = .idle ∧
    BenchEmpty { at3 .halted 0#3 0x00#8 with moves := [.processStart] } ∧
    ({ at3 .halted 0#3 0x00#8 with moves := [.processStart] } : State).moves = .processStart :: [] := ⟨rfl, rfl, rfl⟩

theorem witness_PinsDoNotAlias : bench.pinOf .iLoad = 6 ∧ bench.pinOf .oData = 0 := by decide

end Sys2Proof.Tests
end

/-! PROOFS of the family of the state: what one step can do when nothing is on the bench, the invariants it keeps, and
the agreement of the two views of an operation. -/

namespace Sys2Proof.Proofs

open Sys2Proof Sys2Proof.Machine Sys2Proof.Safety

/-! ### The three ownership relations (R30) -/

theorem sameSequencer_refl (s : State) : SameSequencer s s := ⟨rfl, rfl, rfl⟩

theorem sameOutput_refl (s : State) : SameOutput s s := ⟨rfl, rfl, rfl, rfl, rfl, rfl, rfl⟩

theorem sameOutput_trans {s t u : State} (h : SameOutput s t) (k : SameOutput t u) : SameOutput s u := by
  obtain ⟨h1, h2, h3, h4, h5, h6, h7⟩ := h
  obtain ⟨k1, k2, k3, k4, k5, k6, k7⟩ := k
  exact ⟨k1.trans h1, k2.trans h2, k3.trans h3, k4.trans h4, k5.trans h5, k6.trans h6, k7.trans h7⟩

/-- Whether the outputs show the committed mask depends on the output side alone. -/
theorem showsCommitted_of_sameOutput {s t : State} (h : SameOutput s t) (hs : ShowsCommitted s) :
    ShowsCommitted t := by
  obtain ⟨hc, -, hl, -, -, -, ho⟩ := h
  intro m hm
  rw [hl, ho]
  exact hs m (hc ▸ hm)

/-! ### What one row leaves alone -/

/-- A row of `DRIVE` touches nothing of the input side (R30). -/
theorem driveRow_sameInput {c : Params} {m : Byte} {k : Nat} {r : MicroStep} (s : State)
    (h : (driveRows c m)[k]? = some r) : SameInput s (runRow c r s) := by
  obtain ⟨-, rfl⟩ | ⟨-, rfl⟩ | ⟨j, q, -, -, -, ⟨-, rfl⟩ | ⟨-, rfl⟩ | ⟨-, -, rfl⟩ | ⟨-, rfl⟩⟩ | ⟨-, rfl⟩ | ⟨-, rfl⟩ |
    ⟨-, -, l, -, rfl⟩ := driveRows_at h <;> exact ⟨rfl, rfl, rfl, rfl⟩

/-- A row of `SAMPLE` touches nothing of the output side (R30). -/
theorem sampleRow_sameOutput {c : Params} {k : Nat} {r : MicroStep} (s : State)
    (h : (sampleRows c)[k]? = some r) : SameOutput s (runRow c r s) := by
  obtain ⟨-, ⟨-, rfl⟩ | ⟨-, rfl⟩ | ⟨-, rfl⟩ | ⟨-, ⟨v, rfl⟩ | ⟨i, rfl⟩ | rfl⟩⟩ := sampleRows_at h <;>
    exact ⟨rfl, rfl, rfl, rfl, rfl, rfl, rfl⟩

/-- What every row of a list keeps, the list keeps. -/
theorem runRows_keeps {P : State → State → Prop} (hrefl : ∀ s, P s s) (htrans : ∀ s t u, P s t → P t u → P s u)
    {c : Params} {rows : List MicroStep} (h : ∀ r ∈ rows, ∀ s, P s (runRow c r s)) (s : State) :
    P s (runRows c rows s) := by
  induction rows generalizing s with
  | nil => exact hrefl s
  | cons r rest ih =>
    rw [List.forall_mem_cons] at h
    exact htrans _ _ _ (h.1 s) (ih h.2 _)

/-- `SAMPLE` as a whole touches nothing of the sequencer's registers. -/
theorem snapshot_sameSequencer (c : Params) (b : Bool) (s : State) : SameSequencer s (snapshot c b s) :=
  have h := runRows_untouched c (sampleRows c) s
  ⟨h.mask, h.cursor, h.state⟩

theorem snapshot_upc (c : Params) (b : Bool) (s : State) : (snapshot c b s).upc = s.upc :=
  (runRows_untouched c (sampleRows c) s).upc

/-- `SAMPLE` as a whole touches nothing of the output side, from every start state. -/
theorem snapshot_sameOutput (c : Params) (b : Bool) (s : State) : SameOutput s (snapshot c b s) :=
  runRows_keeps (rows := sampleRows c) sameOutput_refl (fun _ _ _ => sameOutput_trans) (fun _ hr t =>
    have ⟨_, hk⟩ := List.getElem?_of_mem hr
    sampleRow_sameOutput t hk) s

/-! ### What stands after a micro-step -/

section Leaving

variable {c : Params} {k : Nat} (s : State)

theorem leaveDriveRow_inside (m : Byte) (b : Bool) (h : k + 1 < driveLength c) :
    leaveDriveRow c m k b s = { s with upc := .driving m (k + 1) b } :=
  if_pos ((driveRows_length c m).symm ▸ h)

theorem leaveDriveRow_end_tick (m : Byte) (h : ¬ k + 1 < driveLength c) :
    leaveDriveRow c m k true s = tickTail { s with upc := .idle } :=
  if_neg ((driveRows_length c m).symm ▸ h)

theorem leaveDriveRow_end_drive (m : Byte) (h : ¬ k + 1 < driveLength c) :
    leaveDriveRow c m k false s = finishDrive c { s with upc := .idle } :=
  if_neg ((driveRows_length c m).symm ▸ h)

theorem leaveSampleRow_inside (b : Bool) (h : k + 1 < 43) :
    leaveSampleRow c k b s = { s with upc := .sampling (k + 1) b } := if_pos h

theorem leaveSampleRow_end (b : Bool) (h : ¬ k + 1 < 43) :
    leaveSampleRow c k b s = finishSample b { s with upc := .idle } := if_neg h

end Leaving

/-! ### The tick (R107 to R113) -/

/-- In HALTED a tick does not begin a frame, and nothing changes (R113). -/
theorem beginTick_of_halted {s : State} (h : s.state = .halted) : beginTick s = s := by
  obtain ⟨⟩ := s
  cases h
  rfl

theorem beginTick_upc_of_driving {s : State} (h : s.state ≠ .halted) :
    (beginTick s).upc = .driving (tickMask s) 0 true := if_neg h

/-- The update of a tick gives the state and cursor to which the frame's mask belongs (R31 item 2, D7). -/
theorem expectedMask_tickTail {s : State} (h : s.state ≠ .halted) :
    expectedMask (tickTail s).state (tickTail s).cursor = frameMask s.state s.cursor := by
  cases hs : s.state with
  | rampUp =>
    simp only [tickTail, hs, rampUpTail_state, rampUpTail_cursor, frameMask]
    generalize s.cursor = x
    revert x; decide
  | rampDown =>
    simp only [tickTail, hs, rampDownTail_state, rampDownTail_cursor, frameMask]
    generalize s.cursor = x
    revert x; decide
  | allOn => simp [tickTail, hs, expectedMask, frameMask]
  | allOff => simp [tickTail, hs, expectedMask, frameMask]
  | haltPending => simp [tickTail, hs, expectedMask, frameMask]
  | halted => exact absurd hs h

/-- From the mask that belongs to a state and cursor a tick makes the mask its frame drives (R108 to R112). -/
theorem tickMask_eq_frameMask {s : State} (hm : s.mask = expectedMask s.state s.cursor) :
    tickMask s = frameMask s.state s.cursor := by
  cases hs : s.state with
  | rampUp =>
    simp only [tickMask, hs, rampUpMask, hm, frameMask, expectedMask]
    generalize s.cursor = x
    revert x; decide
  | rampDown =>
    simp only [tickMask, hs, rampDownMask, hm, frameMask, expectedMask]
    generalize s.cursor = x
    revert x; decide
  | allOn => simp [tickMask, hs, frameMask]
  | allOff => simp [tickMask, hs, frameMask]
  | haltPending => simp [tickMask, hs, frameMask]
  | halted => simp [tickMask, hs, hm, frameMask, expectedMask]

/-- The update of a tick never moves the sequencer back (R116). -/
theorem tickTail_state_le (s : State) : s.state.code.toNat ≤ (tickTail s).state.code.toNat := by
  cases hs : s.state with
  | rampUp => simp only [tickTail, hs, rampUpTail_state]; split <;> decide
  | rampDown => simp only [tickTail, hs, rampDownTail_state]; split <;> decide
  | allOn => simp only [tickTail, hs]; decide
  | allOff => simp only [tickTail, hs]; decide
  | haltPending => simp only [tickTail, hs]; decide
  | halted => simp only [tickTail, hs]; decide

/-! ### The two views of an instruction and of `STATUS` (D1) -/

section Views

variable {c : Params} {s : State}

theorem runInstr_whole (h : s.grain = .operation) (i : Instr) : runInstr c i s = operate c i s := by
  simp only [runInstr, h]

theorem runInstr_begins (h : s.grain = .event) (i : Instr) : runInstr c i s = beginInstr c i s := by
  simp only [runInstr, h]

theorem callStatus_whole (h : s.grain = .operation) : callStatus c s = status c s := by
  simp only [callStatus, h]

theorem callStatus_begins (h : s.grain = .event) :
    callStatus c s = whenIdle s (.next (beginSample true s)) := by
  simp only [callStatus, h]

end Views

/-! ### What a step can do when nothing is on the bench -/

/-- What a call of the host makes of the idle state `u` in which it is taken, in either view. -/
inductive CallMakes (c : Params) (u : State) : Call → State → Prop
  /-- A tick in HALTED (R113). -/
  | tickHalted (hs : u.state = .halted) : CallMakes c u .tick u
  /-- A tick as a whole (R107). -/
  | tickWhole (hs : u.state ≠ .halted) :
      CallMakes c u .tick (tickTail (frame c (tickMask u) { u with mask := tickMask u }))
  /-- The beginning of a tick, event by event. -/
  | tickBegins (hs : u.state ≠ .halted) : CallMakes c u .tick (beginTick u)
  | statusWhole : CallMakes c u .status (snapshot c true u)
  | statusBegins : CallMakes c u .status (beginSample true u)
  /-- A read (R148). -/
  | read (call : Call) (h1 : call ≠ .tick) (h2 : call ≠ .status) (r : Result) : CallMakes c u call (giveBack r u)

/-- All a step can do when nothing is on the bench. -/
inductive StepMakes (c : Params) (s : State) : State → Prop
  | driving {m : Byte} {k : Nat} {b : Bool} {r : MicroStep} (hu : s.upc = .driving m k b)
      (hr : (driveRows c m)[k]? = some r) : StepMakes c s (leaveDriveRow c m k b (runRow c r s))
  | sampling {k : Nat} {b : Bool} {r : MicroStep} (hu : s.upc = .sampling k b) (hr : (sampleRows c)[k]? = some r) :
      StepMakes c s (leaveSampleRow c k b (runRow c r s))
  | waits (hu : s.upc = .idle) : StepMakes c s s
  | restarts {rest : List Move} (hu : s.upc = .idle) (hm : s.moves = .processStart :: rest) :
      StepMakes c s (restart { s with moves := rest })
  | calls {call : Call} {rest : List Move} {t : State} (hu : s.upc = .idle) (hm : s.moves = .host call :: rest)
      (ht : CallMakes c { s with moves := rest } call t) : StepMakes c s t

theorem runCall_makes {c : Params} {call : Call} {u t : State}
    (h : runCall c call u = .next t) : CallMakes c u call t := by
  have read : ∀ r : Result, call ≠ .tick → call ≠ .status → (.next (giveBack r u) : Answer) = .next t →
      CallMakes c u call t := by
    rintro r h1 h2 ⟨⟩
    exact .read call h1 h2 r
  cases call with
  | tick =>
    cases hg : u.grain with
    | operation =>
      have h : tick c u = .next t := (runInstr_whole hg (.tick 0x00#8)).symm.trans h
      obtain ⟨-, ⟨hs, rfl⟩ | ⟨hs, rfl⟩⟩ := tick_next h
      · exact .tickHalted hs
      · exact .tickWhole hs
    | event =>
      have h : beginInstr c (.tick 0x00#8) u = .next t := (runInstr_begins hg (.tick 0x00#8)).symm.trans h
      obtain ⟨-, ⟨⟩⟩ := whenIdle_eq_next h
      by_cases hs : u.state = .halted
      · rw [beginTick_of_halted hs]
        exact .tickHalted hs
      · exact .tickBegins hs
  | status =>
    cases hg : u.grain with
    | operation =>
      have h : status c u = .next t := (callStatus_whole hg).symm.trans h
      obtain ⟨-, ⟨⟩⟩ := whenIdle_eq_next h
      exact .statusWhole
    | event =>
      have h : whenIdle u (.next (beginSample true u)) = .next t := (callStatus_begins hg).symm.trans h
      obtain ⟨-, ⟨⟩⟩ := whenIdle_eq_next h
      exact .statusBegins
  | readState => exact read _ (by decide) (by decide) h
  | readHalted => exact read _ (by decide) (by decide) h
  | readCommitted =>
    cases hc : u.committed with
    | none => simp [runCall, readCommitted, hc] at h
    | some m => exact read (.committed m) (by decide) (by decide) (by simpa [runCall, readCommitted, hc] using h)
  | readLineLevels =>
    cases hd : c.diagReadback with
    | false => simp [runCall, readLineLevels, hd] at h
    | true =>
      exact read (lineLevels u) (by decide) (by decide) (by simpa [runCall, readLineLevels, hd] using h)

theorem advance_makes {c : Params} {s t : State} (hp : BenchEmpty s) (h : advance c s = .next t) :
    StepMakes c s t := by
  obtain ⟨m, k, b, r, hu, hr, rfl⟩ | ⟨k, b, r, hu, hr, rfl⟩ | ⟨hi, -⟩ := advance_next h
  · exact .driving hu hr
  · exact .sampling hu hr
  · obtain ⟨hn, -⟩ | ⟨-, -, ho⟩ | ⟨-, m, rest, hm, ho⟩ := advance_cases h hp
    · exact absurd hi hn
    · cases ho
      exact .waits hi
    · cases m with
      | processStart =>
        cases ho
        exact .restarts hi hm
      | host call => exact .calls hi hm (runCall_makes ho.symm)

theorem step_makes {s t : State} (hp : BenchEmpty s) (h : step s = .next t) : StepMakes Config.board s t :=
  advance_makes hp h

/-! ### What leaving a row leaves alone -/

section Leaving

variable (c : Params) (m : Byte) (k : Nat) (b : Bool) (s : State)

/-- After a micro-step of `DRIVE`: the next one, the end of a tick, or the end of a `DRIVE` on its own. -/
theorem leaveDriveRow_cases :
    (k + 1 < driveLength c ∧ leaveDriveRow c m k b s = { s with upc := .driving m (k + 1) b }) ∨
    (¬ k + 1 < driveLength c ∧ b = true ∧ leaveDriveRow c m k b s = tickTail { s with upc := .idle }) ∨
    (¬ k + 1 < driveLength c ∧ b = false ∧ leaveDriveRow c m k b s = finishDrive c { s with upc := .idle }) := by
  by_cases h : k + 1 < driveLength c
  · exact .inl ⟨h, leaveDriveRow_inside s m b h⟩
  · cases b with
    | true => exact .inr (.inl ⟨h, rfl, leaveDriveRow_end_tick s m h⟩)
    | false => exact .inr (.inr ⟨h, rfl, leaveDriveRow_end_drive s m h⟩)

/-- After a micro-step of `SAMPLE`: the next one, or the end. -/
theorem leaveSampleRow_cases :
    (k + 1 < 43 ∧ leaveSampleRow c k b s = { s with upc := .sampling (k + 1) b }) ∨
    (¬ k + 1 < 43 ∧ leaveSampleRow c k b s = finishSample b { s with upc := .idle }) := by
  by_cases h : k + 1 < 43
  · exact .inl ⟨h, leaveSampleRow_inside s b h⟩
  · exact .inr ⟨h, leaveSampleRow_end s b h⟩

@[simp] theorem leaveDriveRow_mask : (leaveDriveRow c m k b s).mask = s.mask := by
  obtain ⟨-, e⟩ | ⟨-, -, e⟩ | ⟨-, -, e⟩ := leaveDriveRow_cases c m k b s <;> simp [e]

@[simp] theorem leaveDriveRow_placed : (leaveDriveRow c m k b s).placed = s.placed := by
  obtain ⟨-, e⟩ | ⟨-, -, e⟩ | ⟨-, -, e⟩ := leaveDriveRow_cases c m k b s <;> simp [e]

@[simp] theorem leaveDriveRow_trace : (leaveDriveRow c m k b s).trace = s.trace := by
  obtain ⟨-, e⟩ | ⟨-, -, e⟩ | ⟨-, -, e⟩ := leaveDriveRow_cases c m k b s <;> simp [e]

@[simp] theorem leaveDriveRow_upc : (leaveDriveRow c m k b s).upc =
    if k + 1 < driveLength c then .driving m (k + 1) b else .idle := by
  obtain ⟨h, e⟩ | ⟨h, -, e⟩ | ⟨h, -, e⟩ := leaveDriveRow_cases c m k b s <;> simp [e, h]

theorem leaveDriveRow_sameInput : SameInput s (leaveDriveRow c m k b s) := by
  obtain ⟨-, e⟩ | ⟨-, -, e⟩ | ⟨-, -, e⟩ := leaveDriveRow_cases c m k b s <;> simp [e, SameInput]

theorem leaveDriveRow_sameOutput : SameOutput s (leaveDriveRow c m k b s) := by
  obtain ⟨-, e⟩ | ⟨-, -, e⟩ | ⟨-, -, e⟩ := leaveDriveRow_cases c m k b s <;> simp [e, SameOutput]

@[simp] theorem leaveSampleRow_placed : (leaveSampleRow c k b s).placed = s.placed := by
  obtain ⟨-, e⟩ | ⟨-, e⟩ := leaveSampleRow_cases c k b s <;> simp [e]

@[simp] theorem leaveSampleRow_trace : (leaveSampleRow c k b s).trace = s.trace := by
  obtain ⟨-, e⟩ | ⟨-, e⟩ := leaveSampleRow_cases c k b s <;> simp [e]

@[simp] theorem leaveSampleRow_lvl : (leaveSampleRow c k b s).lvl = s.lvl := by
  obtain ⟨-, e⟩ | ⟨-, e⟩ := leaveSampleRow_cases c k b s <;> simp [e]

@[simp] theorem leaveSampleRow_upc : (leaveSampleRow c k b s).upc =
    if k + 1 < 43 then .sampling (k + 1) b else .idle := by
  obtain ⟨h, e⟩ | ⟨h, e⟩ := leaveSampleRow_cases c k b s <;> simp [e, h]

theorem leaveSampleRow_upc_ne_driving (m : Byte) (k' : Nat) (b' : Bool) :
    (leaveSampleRow c k b s).upc ≠ .driving m k' b' := by
  rw [leaveSampleRow_upc]
  split <;> simp

theorem leaveSampleRow_sameSequencer : SameSequencer s (leaveSampleRow c k b s) := by
  obtain ⟨-, e⟩ | ⟨-, e⟩ := leaveSampleRow_cases c k b s <;> simp [e, SameSequencer]

theorem leaveSampleRow_sameOutput : SameOutput s (leaveSampleRow c k b s) := by
  obtain ⟨-, e⟩ | ⟨-, e⟩ := leaveSampleRow_cases c k b s <;> simp [e, SameOutput]

end Leaving

theorem frame_untouched (c : Params) (m : Byte) (s : State) : Untouched s (frame c m s) :=
  runRows_untouched c _ s

/-! ### The bench -/

theorem CallMakes.placed_eq {c : Params} {call : Call} {u t : State} (h : CallMakes c u call t) :
    t.placed = u.placed := by
  cases h with
  | tickHalted _ => rfl
  | tickWhole _ => exact (tickTail_placed _).trans (frame_untouched c _ _).placed
  | tickBegins _ => rfl
  | statusWhole => exact (runRows_untouched c (sampleRows c) u).placed
  | statusBegins => rfl
  | read => rfl

/-- No step puts a code on the bench (log 2). -/
theorem StepMakes.benchEmpty {c : Params} {s t : State} (h : StepMakes c s t) (hp : BenchEmpty s) :
    BenchEmpty t := by
  cases h with
  | driving _ _ => exact (leaveDriveRow_placed ..).trans ((runRow_untouched c _ s).placed.trans hp)
  | sampling _ _ => exact (leaveSampleRow_placed ..).trans ((runRow_untouched c _ s).placed.trans hp)
  | waits _ => exact hp
  | restarts _ _ => exact hp
  | calls _ _ ht => exact ht.placed_eq.trans hp

/-! ### Ownership (R30) -/

/-- A micro-step of `SAMPLE` touches neither the sequencer nor the output side. -/
theorem samplingStep_sameSequencer {c : Params} {k : Nat} {b : Bool} {r : MicroStep} (s : State) :
    SameSequencer s (leaveSampleRow c k b (runRow c r s)) := by
  obtain ⟨h1, h2, h3⟩ := leaveSampleRow_sameSequencer c k b (runRow c r s)
  have hu := runRow_untouched c r s
  exact ⟨h1.trans hu.mask, h2.trans hu.cursor, h3.trans hu.state⟩

theorem samplingStep_sameOutput {c : Params} {k : Nat} {b : Bool} {r : MicroStep} (s : State)
    (hr : (sampleRows c)[k]? = some r) : SameOutput s (leaveSampleRow c k b (runRow c r s)) :=
  sameOutput_trans (sampleRow_sameOutput s hr) (leaveSampleRow_sameOutput c k b _)

/-- A micro-step of `DRIVE` touches nothing of the input side. -/
theorem drivingStep_sameInput {c : Params} {m : Byte} {k : Nat} {b : Bool} {r : MicroStep} (s : State)
    (hr : (driveRows c m)[k]? = some r) : SameInput s (leaveDriveRow c m k b (runRow c r s)) := by
  obtain ⟨h1, h2, h3, h4⟩ := driveRow_sameInput s hr
  obtain ⟨k1, k2, k3, k4⟩ := leaveDriveRow_sameInput c m k b (runRow c r s)
  exact ⟨k1.trans h1, k2.trans h2, k3.trans h3, k4.trans h4⟩

/-- Only a tick leads to writes of the sequencer's registers (R30). -/
theorem CallMakes.sameSequencer {c : Params} {call : Call} {u t : State} (h : CallMakes c u call t)
    (hc : call ≠ .tick) : SameSequencer u t := by
  cases h with
  | tickHalted _ => exact absurd rfl hc
  | tickWhole _ => exact absurd rfl hc
  | tickBegins _ => exact absurd rfl hc
  | statusWhole => exact snapshot_sameSequencer c true u
  | statusBegins => exact ⟨rfl, rfl, rfl⟩
  | read => exact ⟨rfl, rfl, rfl⟩

/-- Only a tick leads to writes of the output register (R30). -/
theorem CallMakes.sameOutput {c : Params} {call : Call} {u t : State} (h : CallMakes c u call t)
    (hc : call ≠ .tick) : SameOutput u t := by
  cases h with
  | tickHalted _ => exact absurd rfl hc
  | tickWhole _ => exact absurd rfl hc
  | tickBegins _ => exact absurd rfl hc
  | statusWhole => exact snapshot_sameOutput c true u
  | statusBegins => exact ⟨rfl, rfl, rfl, rfl, rfl, rfl, rfl⟩
  | read => exact ⟨rfl, rfl, rfl, rfl, rfl, rfl, rfl⟩

/-- Only a `STATUS` leads to writes of the input register (R30). -/
theorem CallMakes.sameInput {c : Params} {call : Call} {u t : State} (h : CallMakes c u call t)
    (hc : call ≠ .status) : SameInput u t := by
  cases h with
  | tickHalted _ => exact ⟨rfl, rfl, rfl, rfl⟩
  | tickWhole _ =>
    obtain ⟨v, e, -, -, -, -, hl, hp, ha, -⟩ := frame_run c (tickMask u) { u with mask := tickMask u }
    simp [SameInput, e, hl, hp, ha]
  | tickBegins _ => exact ⟨rfl, rfl, rfl, rfl⟩
  | statusWhole => exact absurd rfl hc
  | statusBegins => exact absurd rfl hc
  | read => exact ⟨rfl, rfl, rfl, rfl⟩

/-- Settles O43: each clause is the frame of the one kind of step it speaks of. -/
theorem everyRegisterHasOneOwner : Obligations.EveryRegisterHasOneOwner := by
  refine ⟨fun s t call rest hu hp hm h => ?_, fun s t m k b hu h => ?_, fun s t k b hu h => ?_,
    fun s t hp h => (step_makes hp h).benchEmpty hp⟩
  · have ht : CallMakes Config.board { s with moves := rest } call t :=
      runCall_makes ((advance_of_move hu hp hm).symm.trans h)
    exact ⟨fun hc => ⟨ht.sameSequencer hc, ht.sameOutput hc⟩, ht.sameInput⟩
  · obtain ⟨m', k', b', r, hu', hr, rfl⟩ | ⟨_, _, _, hu', -⟩ | ⟨hu', -⟩ := advance_next h
    · exact ⟨drivingStep_sameInput s hr, (leaveDriveRow_mask ..).trans (runRow_untouched _ r s).mask⟩
    · cases hu.symm.trans hu'
    · cases hu.symm.trans hu'
  · obtain ⟨_, _, _, _, hu', -⟩ | ⟨k', b', r, hu', hr, rfl⟩ | ⟨hu', -⟩ := advance_next h
    · cases hu.symm.trans hu'
    · exact ⟨samplingStep_sameSequencer s, samplingStep_sameOutput s hr⟩
    · cases hu.symm.trans hu'

/-! ### The sequencer -/

/-- The end of a tick does not move the sequencer back, nor does any other micro-step of a `DRIVE`. -/
theorem drivingStep_state_le {c : Params} {m : Byte} {k : Nat} {b : Bool} {r : MicroStep} (s : State) :
    s.state.code.toNat ≤ (leaveDriveRow c m k b (runRow c r s)).state.code.toNat := by
  rw [← (runRow_untouched c r s).state]
  generalize runRow c r s = u
  obtain ⟨-, e⟩ | ⟨-, -, e⟩ | ⟨-, -, e⟩ := leaveDriveRow_cases c m k b u
  · simp [e]
  · rw [e]
    exact tickTail_state_le { u with upc := .idle }
  · simp [e]

/-- No call of the host moves the sequencer back (R116). -/
theorem CallMakes.state_le {c : Params} {call : Call} {u t : State} (h : CallMakes c u call t) :
    u.state.code.toNat ≤ t.state.code.toNat := by
  by_cases hc : call = .tick
  · subst hc
    cases h with
    | tickHalted _ => exact Nat.le_refl _
    | tickWhole _ =>
      have hle := tickTail_state_le (frame c (tickMask u) { u with mask := tickMask u })
      rwa [(frame_untouched c (tickMask u) { u with mask := tickMask u }).state] at hle
    | tickBegins _ => exact Nat.le_refl _
    | read _ h1 => exact absurd rfl h1
  · obtain ⟨-, -, hs⟩ := h.sameSequencer hc
    rw [hs]

/-- Settles O42: only the update at the end of a tick writes `state`, and it never moves it back. -/
theorem stateNeverDecreases : Obligations.StateNeverDecreases := by
  intro s t hp hn h
  cases step_makes hp h with
  | driving _ _ => exact drivingStep_state_le s
  | @sampling k b r _ _ =>
    obtain ⟨-, -, hs⟩ := samplingStep_sameSequencer (c := Config.board) (k := k) (b := b) (r := r) s
    rw [hs]
  | waits _ => exact Nat.le_refl _
  | restarts _ hm => exact absurd (by rw [hm]; rfl) hn
  | calls _ _ ht => exact ht.state_le

/-! ### The sequencer invariant (R31 item 2), clause by clause of `upc` -/

theorem sequencerInv_idle {s : State} (hu : s.upc = .idle) :
    SequencerInv s ↔ BenchEmpty s ∧ s.mask = expectedMask s.state s.cursor := by
  simp only [SequencerInv, hu]

theorem sequencerInv_sampling {s : State} {k : Nat} {b : Bool} (hu : s.upc = .sampling k b) :
    SequencerInv s ↔ BenchEmpty s ∧ s.mask = expectedMask s.state s.cursor := by
  simp only [SequencerInv, hu]

theorem sequencerInv_driving {s : State} {m : Byte} {k : Nat} {b : Bool} (hu : s.upc = .driving m k b) :
    SequencerInv s ↔
      BenchEmpty s ∧ b = true ∧ s.state ≠ .halted ∧ s.mask = m ∧ m = frameMask s.state s.cursor := by
  simp only [SequencerInv, hu]

/-- The mask at reset is the one that belongs to the first state and cursor (R162). -/
theorem expectedMask_reset : expectedMask .rampUp 0#3 = 0x00#8 := by decide

/-- Outside a `DRIVE` the invariant speaks of the sequencer's registers and of the bench alone. -/
theorem sequencerInv_of_sameSequencer {s t : State} (h : SameSequencer s t) (hp : BenchEmpty t)
    (hs : s.mask = expectedMask s.state s.cursor) (ht : ∀ m k b, t.upc ≠ .driving m k b) : SequencerInv t := by
  obtain ⟨hm, hc, hst⟩ := h
  rw [← hm, ← hc, ← hst] at hs
  cases hu : t.upc with
  | idle => exact (sequencerInv_idle hu).mpr ⟨hp, hs⟩
  | sampling k b => exact (sequencerInv_sampling hu).mpr ⟨hp, hs⟩
  | driving m k b => exact absurd hu (ht m k b)

/-- The update of a tick whose frame has been sent restores the invariant between two ticks (R107). -/
theorem sequencerInv_tickTail {u : State} (hp : BenchEmpty u) (hu : u.upc = .idle) (hs : u.state ≠ .halted)
    (hm : u.mask = frameMask u.state u.cursor) : SequencerInv (tickTail u) :=
  (sequencerInv_idle ((tickTail_upc u).trans hu)).mpr
    ⟨(tickTail_placed u).trans hp, (tickTail_mask u).trans (hm.trans (expectedMask_tickTail hs).symm)⟩

/-- A micro-step of a tick's frame keeps the invariant; the last one runs the update. -/
theorem sequencerInv_leaveDriveRow {c : Params} {m : Byte} {k : Nat} {b : Bool} {u : State}
    (hu : u.upc = .driving m k b) (h : SequencerInv u) : SequencerInv (leaveDriveRow c m k b u) := by
  obtain ⟨hp, rfl, hs, hm, hf⟩ := (sequencerInv_driving hu).mp h
  obtain ⟨-, e⟩ | ⟨-, -, e⟩ | ⟨-, hb, -⟩ := leaveDriveRow_cases c m k true u
  · rw [e]
    exact (sequencerInv_driving rfl).mpr ⟨hp, rfl, hs, hm, hf⟩
  · rw [e]
    exact sequencerInv_tickTail hp rfl hs (hm.trans hf)
  · cases hb

/-- One event, whatever it is, moves none of the registers the invariant speaks of. -/
theorem sequencerInv_of_untouched {s t : State} (h : Untouched s t) (hs : SequencerInv s) : SequencerInv t := by
  unfold SequencerInv BenchEmpty at *
  rwa [h.upc, h.mask, h.state, h.cursor, h.placed]

/-- A call of the host keeps the invariant of an idle core. -/
theorem CallMakes.sequencerInv {c : Params} {call : Call} {u t : State} (h : CallMakes c u call t)
    (hu : u.upc = .idle) (hi : SequencerInv u) : SequencerInv t := by
  have hp : BenchEmpty t := h.placed_eq.trans hi.1
  have hm := ((sequencerInv_idle hu).mp hi).2
  have hf := tickMask_eq_frameMask hm
  cases h with
  | tickHalted _ => exact hi
  | tickWhole hs =>
    have hk := frame_untouched c (tickMask u) { u with mask := tickMask u }
    refine sequencerInv_tickTail ((tickTail_placed _).symm.trans hp) (hk.upc.trans hu) ?_ ?_
    · rwa [hk.state]
    · rw [hk.mask, hk.state, hk.cursor]
      exact hf
  | tickBegins hs => exact (sequencerInv_driving (beginTick_upc_of_driving hs)).mpr ⟨hp, rfl, hs, rfl, hf⟩
  | statusWhole =>
    exact sequencerInv_of_sameSequencer (snapshot_sameSequencer c true u) hp hm
      (by simp [snapshot_upc, hu])
  | statusBegins => exact sequencerInv_of_sameSequencer (sameSequencer_refl u) hp hm (by simp)
  | read => exact hi

/-- Settles O38, by the kinds of step there are with nothing on the bench. -/
theorem sequencerInvariantKept : Obligations.SequencerInvariantKept := by
  intro s t hi h
  cases step_makes hi.1 h with
  | @driving m k b r hu hr =>
    have hk := runRow_untouched Config.board r s
    exact sequencerInv_leaveDriveRow (hk.upc.trans hu) (sequencerInv_of_untouched hk hi)
  | @sampling k b r hu hr =>
    refine sequencerInv_of_sameSequencer (samplingStep_sameSequencer s) ?_ ((sequencerInv_sampling hu).mp hi).2 ?_
    · exact (StepMakes.sampling (c := Config.board) hu hr).benchEmpty hi.1
    · exact leaveSampleRow_upc_ne_driving _ _ _ _
  | waits _ => exact hi
  | restarts _ _ => exact (sequencerInv_idle rfl).mpr ⟨hi.1, expectedMask_reset.symm⟩
  | calls hu _ ht => exact ht.sequencerInv hu hi

/-! ### The committed mask (R16, R88) -/

/-- The slots of a frame stand before the micro-step that raises the latch (R89). -/
theorem slot_lt_latchStep {c : Params} {j q : Nat} (hj : j < 8) (hq : q < slotLength c) :
    2 + slotLength c * j + q < latchStep c := by
  have := Nat.mul_le_mul_left (slotLength c) (show j ≤ 7 by omega)
  unfold latchStep
  omega

/-- Of the rows of `DRIVE(m)` the one that raises the latch writes `committed`, and no other (R88, D10). -/
theorem driveRow_committed {c : Params} {m : Byte} {k : Nat} {r : MicroStep} (s : State)
    (h : (driveRows c m)[k]? = some r) :
    (runRow c r s).committed = if k = latchStep c then some m else s.committed := by
  have plainRow : ∀ op, r = plain op → k ≠ latchStep c →
      (runRow c r s).committed = if k = latchStep c then some m else s.committed := by
    rintro op rfl hk
    simp [runRow, plain, hk]
  obtain ⟨hk, e⟩ | ⟨hk, e⟩ | ⟨j, q, hj, hq, hk, e⟩ | ⟨hk, rfl⟩ | ⟨hk, e⟩ | ⟨hk, -, l, -, e⟩ := driveRows_at h
  · exact plainRow _ e (by unfold latchStep; omega)
  · exact plainRow _ e (by unfold latchStep; omega)
  · have hlt := hk ▸ slot_lt_latchStep hj hq
    obtain ⟨-, e⟩ | ⟨-, e⟩ | ⟨-, -, e⟩ | ⟨-, e⟩ := e <;> exact plainRow _ e (by omega)
  · simp [runRow, hk]
  · exact plainRow _ e (by omega)
  · exact plainRow _ e (by omega)

theorem latchStep_lt_driveLength (c : Params) : latchStep c + 1 < driveLength c := by
  unfold driveLength
  omega

/-- The committed mask between two ticks (R31 item 3). -/
def CommittedBetween (s : State) : Prop :=
  s.committed = some s.mask ∨ (s.committed = none ∧ s.state = .rampUp ∧ s.cursor = 0#3)

theorem committedInv_idle {s : State} (hu : s.upc = .idle) :
    CommittedInv s ↔ BenchEmpty s ∧ CommittedBetween s := by
  simp only [CommittedInv, hu, CommittedBetween]

theorem committedInv_sampling {s : State} {k : Nat} {b : Bool} (hu : s.upc = .sampling k b) :
    CommittedInv s ↔ BenchEmpty s ∧ CommittedBetween s := by
  simp only [CommittedInv, hu, CommittedBetween]

theorem committedInv_driving {s : State} {m : Byte} {k : Nat} {b : Bool} (hu : s.upc = .driving m k b) :
    CommittedInv s ↔ BenchEmpty s ∧ b = true ∧ k < driveLength Config.board ∧ s.mask = m ∧
      (latchStep Config.board < k → s.committed = some m) := by
  simp only [CommittedInv, hu]

/-- Outside a `DRIVE` the invariant speaks of the sequencer's registers, of `committed` and of the bench alone. -/
theorem committedInv_of_same {s t : State} (h : SameSequencer s t) (hk : SameOutput s t) (hp : BenchEmpty t)
    (hs : CommittedBetween s) (ht : ∀ m k b, t.upc ≠ .driving m k b) : CommittedInv t := by
  have hs' : CommittedBetween t := by
    obtain ⟨hm, hc, hst⟩ := h
    obtain ⟨hk, -⟩ := hk
    unfold CommittedBetween at *
    rwa [hm, hc, hst, hk]
  cases hu : t.upc with
  | idle => exact (committedInv_idle hu).mpr ⟨hp, hs'⟩
  | sampling k b => exact (committedInv_sampling hu).mpr ⟨hp, hs'⟩
  | driving m k b => exact absurd hu (ht m k b)

/-- A micro-step of a tick's frame keeps the invariant: from the latch on `committed` is the frame's mask. -/
theorem committedInv_drivingStep {m : Byte} {k : Nat} {b : Bool} {r : MicroStep} {s : State}
    (hu : s.upc = .driving m k b) (hr : (driveRows Config.board m)[k]? = some r) (h : CommittedInv s) :
    CommittedInv (leaveDriveRow Config.board m k b (runRow Config.board r s)) := by
  obtain ⟨hp, rfl, hk, hm, hc⟩ := (committedInv_driving hu).mp h
  have hrow := runRow_untouched Config.board r s
  have hp' : BenchEmpty (runRow Config.board r s) := hrow.placed.trans hp
  have hm' : (runRow Config.board r s).mask = m := hrow.mask.trans hm
  have hc' : latchStep Config.board < k + 1 → (runRow Config.board r s).committed = some m := by
    intro hlt
    rw [driveRow_committed s hr]
    split
    · rfl
    · exact hc (by omega)
  generalize runRow Config.board r s = u at *
  obtain ⟨hn, e⟩ | ⟨hn, -, e⟩ | ⟨-, hb, -⟩ := leaveDriveRow_cases Config.board m k true u
  · rw [e]
    exact (committedInv_driving rfl).mpr ⟨hp', rfl, hn, hm', hc'⟩
  · have hlt := latchStep_lt_driveLength Config.board
    rw [e]
    exact (committedInv_idle (tickTail_upc _)).mpr
      ⟨(tickTail_placed _).trans hp', .inl (by simp [hm', hc' (by omega)])⟩
  · cases hb

/-- A call of the host keeps the invariant of an idle core. -/
theorem CallMakes.committedInv {call : Call} {u t : State} (h : CallMakes Config.board u call t)
    (hu : u.upc = .idle) (hi : CommittedInv u) : CommittedInv t := by
  have hp : BenchEmpty t := h.placed_eq.trans hi.1
  have hc := ((committedInv_idle hu).mp hi).2
  cases h with
  | tickHalted _ => exact hi
  | tickWhole hs =>
    obtain ⟨v, e, hk, -, -, hv, -⟩ := frame_run Config.board (tickMask u) { u with mask := tickMask u }
    rw [e] at hp ⊢
    exact (committedInv_idle ((tickTail_upc v).trans (hk.upc.trans hu))).mpr ⟨hp, .inl (by simp [hv, hk.mask])⟩
  | tickBegins hs =>
    have hlt := latchStep_lt_driveLength Config.board
    exact (committedInv_driving (beginTick_upc_of_driving hs)).mpr ⟨hp, rfl, by omega, rfl, by omega⟩
  | statusWhole =>
    exact committedInv_of_same (snapshot_sameSequencer Config.board true u) (snapshot_sameOutput Config.board true u) hp
      hc (by simp [snapshot_upc, hu])
  | statusBegins => exact committedInv_of_same (sameSequencer_refl u) (sameOutput_refl u) hp hc (by simp)
  | read => exact hi

/-- Settles O41, by the kinds of step there are with nothing on the bench. -/
theorem committedInvariantKept : Obligations.CommittedInvariantKept := by
  intro s t hi h
  cases step_makes hi.1 h with
  | driving hu hr => exact committedInv_drivingStep hu hr hi
  | @sampling k b r hu hr =>
    refine committedInv_of_same (samplingStep_sameSequencer s) (samplingStep_sameOutput s hr) ?_
      ((committedInv_sampling hu).mp hi).2 ?_
    · exact (StepMakes.sampling (c := Config.board) hu hr).benchEmpty hi.1
    · exact leaveSampleRow_upc_ne_driving _ _ _ _
  | waits _ => exact hi
  | restarts _ _ => exact (committedInv_idle rfl).mpr ⟨hi.1, .inr ⟨rfl, rfl, rfl⟩⟩
  | calls hu _ ht => exact ht.committedInv hu hi

/-! ### The frame of this board (R89, R129, R130, R132) -/

/-- Where the lines and `DEV_OUT` stand before micro-step `k` of this board's `DRIVE(m)`, which may also be the end
of the frame: `FrameInProgress` without the bound on `k`, the board's numbers put in. -/
structure FrameAt (m : Byte) (k : Nat) (s : State) : Prop where
  enabled  : 1 ≤ k → s.lvl.oOe = Config.board.oeOn
  latchLow : 2 ≤ k → k ≤ 26 → s.lvl.oLatch = false
  shifted  : ∀ i, i < slotsDone k → s.sh.getLsbD i = m.getLsbD (8 - slotsDone k + i)
  clockLow : 2 ≤ k → k < 26 → (k - 2) % 3 ≠ 0 → s.lvl.oClk = false
  dataSet  : 2 ≤ k → k < 26 → 2 ≤ (k - 2) % 3 → s.lvl.oData = m.getLsbD (7 - (k - 2) / 3)
  showsOld : k ≤ 26 → ShowsCommitted s
  showsNew : 26 < k → s.lat = m ∧ s.committed = some m

theorem frameInProgress_iff {m : Byte} {k : Nat} {s : State} :
    FrameInProgress m k s ↔ k < driveLength Config.board ∧ FrameAt m k s := by
  constructor
  · rintro ⟨h0, h1, h2, h3, h4, h5, h6, h7⟩
    exact ⟨h0, h1, h2, h3, h4, h5, h6, h7⟩
  · rintro ⟨h0, h1, h2, h3, h4, h5, h6, h7⟩
    exact ⟨h0, h1, h2, h3, h4, h5, h6, h7⟩

theorem slotsDone_eq (k : Nat) : slotsDone k = min 8 ((k - 2) / 3) := rfl

/-- Before the first event nothing of the frame stands yet. -/
theorem frameAt_zero {m : Byte} {s : State} (h : ShowsCommitted s) : FrameAt m 0 s where
  enabled := by omega
  latchLow := by omega
  shifted i hi := absurd hi (by simp [slotsDone_eq])
  clockLow := by omega
  dataSet := by omega
  showsOld _ := h
  showsNew := by omega

/-- At the end of the frame the outputs show its mask (R131). -/
theorem FrameAt.showsCommitted_at_end {m : Byte} {k : Nat} {s : State} (h : FrameAt m k s) (hk : 26 < k) :
    ShowsCommitted s := by
  obtain ⟨hl, hc⟩ := h.showsNew hk
  intro m' hm'
  rw [hc] at hm'
  exact ⟨hl.trans (Option.some.inj hm'), h.enabled (by omega)⟩

section Rows

variable {m : Byte} {k : Nat} {s t : State}

/-- A row that ends no slot and is not the latch: it leaves shift stage, latches and `committed`, and puts the lines
where the next row needs them. -/
theorem FrameAt.next_of_quiet (h : FrameAt m k s) (hd : slotsDone (k + 1) = slotsDone k) (hk : k ≠ 26)
    (hsh : t.sh = s.sh) (hlat : t.lat = s.lat) (hcom : t.committed = s.committed)
    (hoe : t.lvl.oOe = Config.board.oeOn ∨ (1 ≤ k ∧ t.lvl.oOe = s.lvl.oOe))
    (hlow : 2 ≤ k + 1 → k + 1 ≤ 26 → t.lvl.oLatch = false)
    (hclk : 2 ≤ k + 1 → k + 1 < 26 → (k + 1 - 2) % 3 ≠ 0 → t.lvl.oClk = false)
    (hdata : 2 ≤ k + 1 → k + 1 < 26 → 2 ≤ (k + 1 - 2) % 3 → t.lvl.oData = m.getLsbD (7 - (k + 1 - 2) / 3)) :
    FrameAt m (k + 1) t where
  enabled _ := hoe.elim id fun ⟨h1, e⟩ => e.trans (h.enabled h1)
  latchLow := hlow
  shifted i hi := by
    rw [hd] at hi ⊢
    rw [hsh]
    exact h.shifted i hi
  clockLow := hclk
  dataSet := hdata
  showsOld hle m' hm' := by
    obtain ⟨h1, h2⟩ := h.showsOld (by omega) m' (hcom ▸ hm')
    exact ⟨hlat.trans h1, hoe.elim id fun ⟨_, e⟩ => e.trans h2⟩
  showsNew hlt := by
    rw [hlat, hcom]
    exact h.showsNew (by omega)

/-- A row that leaves the lines of the output register and `DEV_OUT` alone, after the latch. -/
theorem FrameAt.next_of_sameOutput (h : FrameAt m k s) (hk : 26 < k) (hs : SameOutput s t) : FrameAt m (k + 1) t := by
  obtain ⟨hcom, hsh, hlat, -, -, -, hoe⟩ := hs
  refine h.next_of_quiet ?_ ?_ hsh hlat hcom (.inr ⟨?_, hoe⟩) ?_ ?_ ?_
  · simp only [slotsDone_eq]
    omega
  all_goals omega

/-- The rising clock edge that ends slot `j` shifts the slot's bit in (R129). -/
theorem FrameAt.next_of_clock {j : Nat} (hj : j < 8) (h : FrameAt m (2 + 3 * j + 2) s) :
    FrameAt m (2 + 3 * j + 3) (runRow Config.board (plain (.set .oClk true)) s) := by
  have hclk : s.lvl.oClk = false := h.clockLow (by omega) (by omega) (by omega)
  have hdata : s.lvl.oData = m.getLsbD (7 - j) := by
    have := h.dataSet (by omega) (by omega) (by omega)
    rwa [show (2 + 3 * j + 2 - 2) / 3 = j by omega] at this
  have hdone : slotsDone (2 + 3 * j + 2) = j := by rw [slotsDone_eq]; omega
  have hdone' : slotsDone (2 + 3 * j + 3) = j + 1 := by rw [slotsDone_eq]; omega
  have hsh : (runRow Config.board (plain (.set .oClk true)) s).sh = shiftOut s.sh s.lvl.oData := by
    simp [runRow, plain, act, applyNote, rising, State.level, hclk]
  have hold := h.showsOld (by omega)
  refine ⟨fun _ => h.enabled (by omega), fun _ _ => h.latchLow (by omega) (by omega), fun i hi => ?_, by omega,
    by omega, fun _ => hold, by omega⟩
  rw [hdone'] at hi ⊢
  rw [hsh]
  cases i with
  | zero =>
    rw [shiftOut_bit_zero, hdata]
    congr 1
    omega
  | succ i =>
    have hbit := h.shifted i (by omega)
    rw [hdone] at hbit
    rw [shiftOut_bit_succ _ _ _ (by omega), hbit]
    congr 1
    omega

/-- The rising edge of `O_LATCH` shows the whole mask (R130, R132). -/
theorem FrameAt.next_of_latch (h : FrameAt m 26 s) :
    FrameAt m 27 (runRow Config.board { op := .set .oLatch true, note := .commit m } s) := by
  have hlow : s.lvl.oLatch = false := h.latchLow (by omega) (by omega)
  have hsh : s.sh = m := by
    apply BitVec.eq_of_getLsbD_eq
    intro i hi
    simpa [slotsDone_eq] using h.shifted i hi
  have hlat : (runRow Config.board { op := .set .oLatch true, note := .commit m } s).lat = m := by
    simp [runRow, act, rising, State.level, hlow, hsh]
  exact ⟨fun _ => h.enabled (by omega), by omega, h.shifted, by omega, by omega, by omega, fun _ => ⟨hlat, rfl⟩⟩

/-- Every row of the frame takes it one micro-step on. -/
theorem FrameAt.next_of_row {r : MicroStep} (hr : (driveRows Config.board m)[k]? = some r) (h : FrameAt m k s) :
    FrameAt m (k + 1) (runRow Config.board r s) := by
  have hrow := driveRows_at hr
  simp only [slotLength_board, latchStep_board] at hrow
  obtain ⟨rfl, rfl⟩ | ⟨rfl, rfl⟩ | ⟨j, q, hj, hq, rfl, hslot⟩ | ⟨rfl, rfl⟩ | ⟨rfl, rfl⟩ | ⟨hk, -, l, -, rfl⟩ := hrow
  · exact h.next_of_quiet rfl (by omega) rfl rfl rfl (.inl rfl) (by omega) (by omega) (by omega)
  · exact h.next_of_quiet rfl (by omega) rfl rfl rfl (.inr ⟨by omega, rfl⟩) (fun _ _ => rfl) (by omega) (by omega)
  · have hdone : q + 1 < 3 → slotsDone (2 + 3 * j + q + 1) = slotsDone (2 + 3 * j + q) := by
      simp only [slotsDone_eq]
      omega
    have hlow : s.lvl.oLatch = false := h.latchLow (by omega) (by omega)
    obtain ⟨rfl, rfl⟩ | ⟨rfl, rfl⟩ | ⟨-, h4, -⟩ | ⟨hq3, rfl⟩ := hslot
    · exact h.next_of_quiet (hdone (by omega)) (by omega) rfl rfl rfl (.inr ⟨by omega, rfl⟩) (fun _ _ => hlow)
        (fun _ _ _ => rfl) (by omega)
    · refine h.next_of_quiet (hdone (by omega)) (by omega) rfl rfl rfl (.inr ⟨by omega, rfl⟩) (fun _ _ => hlow)
        (fun _ _ _ => h.clockLow (by omega) (by omega) (by omega)) (fun _ _ _ => ?_)
      rw [show (2 + 3 * j + 1 + 1 - 2) / 3 = j by omega]
      rfl
    · omega
    · obtain rfl : q = 2 := by omega
      exact h.next_of_clock hj
  · exact h.next_of_latch
  · exact h.next_of_sameOutput (by omega) ⟨rfl, rfl, rfl, rfl, rfl, rfl, rfl⟩
  · exact h.next_of_sameOutput (by omega) ⟨rfl, rfl, rfl, rfl, rfl, rfl, rfl⟩

end Rows

/-! ### The output invariant (R16, R42) -/

theorem outputInv_idle {s : State} (hu : s.upc = .idle) : OutputInv s ↔ BenchEmpty s ∧ ShowsCommitted s := by
  simp only [OutputInv, hu]

theorem outputInv_sampling {s : State} {k : Nat} {b : Bool} (hu : s.upc = .sampling k b) :
    OutputInv s ↔ BenchEmpty s ∧ ShowsCommitted s := by
  simp only [OutputInv, hu]

theorem outputInv_driving {s : State} {m : Byte} {k : Nat} {b : Bool} (hu : s.upc = .driving m k b) :
    OutputInv s ↔ BenchEmpty s ∧ k < driveLength Config.board ∧ FrameAt m k s := by
  simp only [OutputInv, hu, frameInProgress_iff]

/-- Outside a `DRIVE` the invariant speaks of the output side and of the bench alone. -/
theorem outputInv_of_sameOutput {s t : State} (h : SameOutput s t) (hp : BenchEmpty t) (hs : ShowsCommitted s)
    (ht : ∀ m k b, t.upc ≠ .driving m k b) : OutputInv t := by
  have hs' := showsCommitted_of_sameOutput h hs
  cases hu : t.upc with
  | idle => exact (outputInv_idle hu).mpr ⟨hp, hs'⟩
  | sampling k b => exact (outputInv_sampling hu).mpr ⟨hp, hs'⟩
  | driving m k b => exact absurd hu (ht m k b)

/-- The frame sees of a state the output side alone. -/
theorem FrameAt.of_sameOutput {m : Byte} {k : Nat} {s t : State} (h : FrameAt m k s) (hs : SameOutput s t) :
    FrameAt m k t := by
  have hshow := showsCommitted_of_sameOutput hs
  obtain ⟨hcom, hsh, hlat, hdata, hclk, hlatch, hoe⟩ := hs
  constructor
  · rw [hoe]; exact h.enabled
  · rw [hlatch]; exact h.latchLow
  · rw [hsh]; exact h.shifted
  · rw [hclk]; exact h.clockLow
  · rw [hdata]; exact h.dataSet
  · exact fun hk => hshow (h.showsOld hk)
  · rw [hlat, hcom]; exact h.showsNew

/-- A micro-step of a frame takes it one row on, and the last one ends with the frame's mask shown. -/
theorem outputInv_drivingStep {m : Byte} {k : Nat} {b : Bool} {r : MicroStep} {s : State}
    (hu : s.upc = .driving m k b) (hr : (driveRows Config.board m)[k]? = some r) (h : OutputInv s) :
    OutputInv (leaveDriveRow Config.board m k b (runRow Config.board r s)) := by
  obtain ⟨hp, -, hf⟩ := (outputInv_driving hu).mp h
  have hp' := (StepMakes.driving (c := Config.board) hu hr).benchEmpty hp
  have hf' := (hf.next_of_row hr).of_sameOutput (leaveDriveRow_sameOutput Config.board m k b _)
  have hupc := leaveDriveRow_upc Config.board m k b (runRow Config.board r s)
  by_cases hn : k + 1 < driveLength Config.board
  · rw [if_pos hn] at hupc
    exact (outputInv_driving hupc).mpr ⟨hp', hn, hf'⟩
  · rw [if_neg hn] at hupc
    have hlt := latchStep_lt_driveLength Config.board
    rw [latchStep_board] at hlt
    exact (outputInv_idle hupc).mpr ⟨hp', hf'.showsCommitted_at_end (by omega)⟩

/-- A call of the host keeps the invariant of an idle core. -/
theorem CallMakes.outputInv {call : Call} {u t : State} (h : CallMakes Config.board u call t)
    (hu : u.upc = .idle) (hi : OutputInv u) : OutputInv t := by
  have hp : BenchEmpty t := h.placed_eq.trans hi.1
  have hs := ((outputInv_idle hu).mp hi).2
  cases h with
  | tickHalted _ => exact hi
  | tickWhole _ =>
    obtain ⟨v, e, hk, -, hlat, hcom, hlvl, -⟩ := frame_run Config.board (tickMask u) { u with mask := tickMask u }
    rw [e] at hp ⊢
    refine (outputInv_idle ((tickTail_upc v).trans (hk.upc.trans hu))).mpr ⟨hp, fun m hm => ?_⟩
    rw [tickTail_committed, hcom] at hm
    rw [tickTail_lat, tickTail_lvl, hlat, hlvl]
    exact ⟨Option.some.inj hm, rfl⟩
  | tickBegins hst =>
    have hlt := latchStep_lt_driveLength Config.board
    exact (outputInv_driving (beginTick_upc_of_driving hst)).mpr ⟨hp, by omega, frameAt_zero hs⟩
  | statusWhole =>
    exact outputInv_of_sameOutput (snapshot_sameOutput Config.board true u) hp hs (by simp [snapshot_upc, hu])
  | statusBegins => exact outputInv_of_sameOutput (sameOutput_refl u) hp hs (by simp)
  | read => exact hi

/-- Settles O40, by the kinds of step there are with nothing on the bench. -/
theorem outputInvariantKept : Obligations.OutputInvariantKept := by
  intro s t hi h
  cases step_makes hi.1 h with
  | driving hu hr => exact outputInv_drivingStep hu hr hi
  | @sampling k b r hu hr =>
    refine outputInv_of_sameOutput (samplingStep_sameOutput s hr) ?_ ((outputInv_sampling hu).mp hi).2 ?_
    · exact (StepMakes.sampling (c := Config.board) hu hr).benchEmpty hi.1
    · exact leaveSampleRow_upc_ne_driving _ _ _ _
  | waits _ => exact hi
  | restarts _ _ => exact (outputInv_idle rfl).mpr ⟨hi.1, fun m hm => by cases hm⟩
  | calls hu _ ht => exact ht.outputInv hu hi

/-! ### A running operation (R20, R183) -/

theorem runningInv_idle {s : State} (hu : s.upc = .idle) : RunningInv s := by
  simp only [RunningInv, hu]

theorem runningInv_driving {s : State} {m : Byte} {k : Nat} {b : Bool} (hu : s.upc = .driving m k b) :
    RunningInv s ↔ k < driveLength Config.board := by
  simp only [RunningInv, hu]

theorem runningInv_sampling {s : State} {k : Nat} {b : Bool} (hu : s.upc = .sampling k b) :
    RunningInv s ↔ k < 43 ∧ (3 ≤ k → s.lvl.iLoad = true) := by
  simp only [RunningInv, hu]

/-- The load pulse of `SAMPLE` ends with `I_LOAD` high, and no later row moves the line (R97). -/
theorem sampleRow_iLoad {c : Params} {k : Nat} {r : MicroStep} {s : State} (hr : (sampleRows c)[k]? = some r)
    (hl : 3 ≤ k → s.lvl.iLoad = true) (hk : 3 ≤ k + 1) : (runRow c r s).lvl.iLoad = true := by
  obtain ⟨-, ⟨rfl, -⟩ | ⟨rfl, -⟩ | ⟨-, rfl⟩ | ⟨h3, ⟨v, rfl⟩ | ⟨i, rfl⟩ | rfl⟩⟩ := sampleRows_at hr
  · omega
  · omega
  · rfl
  all_goals exact hl h3

/-- A step of a running `DRIVE`, which always answers. -/
theorem step_driving {s : State} {m : Byte} {k : Nat} {b : Bool} (hu : s.upc = .driving m k b)
    (hk : k < driveLength Config.board) :
    ∃ r, (driveRows Config.board m)[k]? = some r ∧
      step s = .next (leaveDriveRow Config.board m k b (runRow Config.board r s)) := by
  obtain ⟨r, hr, e⟩ := microStep_driving hu hk
  exact ⟨r, hr, (advance_of_running (by simp [hu])).trans e⟩

/-- A step of a running `SAMPLE`, which always answers once `I_LOAD` is high after the load pulse. -/
theorem step_sampling {s : State} {k : Nat} {b : Bool} (hu : s.upc = .sampling k b) (hk : k < 43)
    (hl : 3 ≤ k → s.lvl.iLoad = true) :
    ∃ r, (sampleRows Config.board)[k]? = some r ∧
      step s = .next (leaveSampleRow Config.board k b (runRow Config.board r s)) := by
  obtain ⟨r, hr, e⟩ := microStep_sampling hu hk hl
  exact ⟨r, hr, (advance_of_running (by simp [hu])).trans e⟩

theorem runningInv_leaveDriveRow (m : Byte) (k : Nat) (b : Bool) (s : State) :
    RunningInv (leaveDriveRow Config.board m k b s) := by
  have hu := leaveDriveRow_upc Config.board m k b s
  by_cases h : k + 1 < driveLength Config.board
  · rw [if_pos h] at hu
    exact (runningInv_driving hu).mpr h
  · rw [if_neg h] at hu
    exact runningInv_idle hu

theorem runningInv_leaveSampleRow (c : Params) (k : Nat) (b : Bool) {s : State} (hl : 3 ≤ k + 1 → s.lvl.iLoad = true) :
    RunningInv (leaveSampleRow c k b s) := by
  have hu := leaveSampleRow_upc c k b s
  by_cases h : k + 1 < 43
  · rw [if_pos h] at hu
    exact (runningInv_sampling hu).mpr ⟨h, by rwa [leaveSampleRow_lvl]⟩
  · rw [if_neg h] at hu
    exact runningInv_idle hu

/-- Whatever an idle core makes, the bench among it: it stays idle or stands before the first row of a table. -/
theorem runningInv_of_made {c : Params} {u t : State} (h : Made c u t) (hu : u.upc = .idle) : RunningInv t := by
  have hlen := latchStep_lt_driveLength Config.board
  obtain rfl | rfl | ⟨r, rfl⟩ | ⟨op, -, rfl⟩ | ⟨b, rfl⟩ | ⟨m, rfl⟩ | ⟨-, rfl⟩ | rfl | ⟨m, rfl⟩ | ⟨b, rfl⟩ := h
  · exact runningInv_idle hu
  · exact runningInv_idle rfl
  · exact runningInv_idle hu
  · exact runningInv_idle ((act_untouched c op u).upc.trans hu)
  · exact runningInv_idle ((snapshot_upc c b u).trans hu)
  · exact runningInv_idle ((frame_untouched c m u).upc.trans hu)
  · exact runningInv_idle ((tickTail_upc _).trans ((frame_untouched c _ _).upc.trans hu))
  · by_cases hs : u.state = .halted
    · exact runningInv_idle ((if_pos hs).trans hu)
    · exact (runningInv_driving (beginTick_upc_of_driving hs)).mpr (by omega)
  · exact (runningInv_driving rfl).mpr (by omega)
  · exact (runningInv_sampling rfl).mpr ⟨by omega, by omega⟩

/-- Settles O47: no row of the tables meets an objection where the invariant holds, and each step keeps it. -/
theorem runningOperationNeverStops : Obligations.RunningOperationNeverStops := by
  refine ⟨fun s hi hn => ?_, fun s t hi h => ?_⟩
  · cases hu : s.upc with
    | idle => exact absurd hu hn
    | driving m k b =>
      obtain ⟨r, -, e⟩ := step_driving hu ((runningInv_driving hu).mp hi)
      exact ⟨_, e⟩
    | sampling k b =>
      obtain ⟨hk, hl⟩ := (runningInv_sampling hu).mp hi
      obtain ⟨r, -, e⟩ := step_sampling hu hk hl
      exact ⟨_, e⟩
  · obtain ⟨m, k, b, r, -, -, rfl⟩ | ⟨k, b, r, hu, hr, rfl⟩ | ⟨hu, u, hk, hm⟩ := advance_next h
    · exact runningInv_leaveDriveRow m k b _
    · exact runningInv_leaveSampleRow _ k b (sampleRow_iLoad hr ((runningInv_sampling hu).mp hi).2)
    · obtain ⟨codes, moves, rfl⟩ := hk.eq
      exact runningInv_of_made hm hu

/-! ### The two views agree (D1) -/

theorem runRow_trace (c : Params) (r : MicroStep) (s : State) :
    (runRow c r s).trace = s.trace ++ [eventOf r.op s] := by
  simp [runRow]

/-- Settles O48, from the one row that each step of a running operation is. -/
theorem microStepsCountUp : Obligations.MicroStepsCountUp := by
  refine ⟨fun s m k b hu hk => ?_, fun s k b hu hi => ?_, fun c => ?_⟩
  · obtain ⟨r, -, e⟩ := step_driving hu hk
    refine ⟨_, eventOf r.op s, e, (leaveDriveRow_trace ..).trans (runRow_trace ..), ?_⟩
    rw [leaveDriveRow_upc]
    by_cases h : k + 1 = driveLength Config.board
    · rw [if_neg (by omega), if_pos h]
    · rw [if_pos (by omega), if_neg h]
  · obtain ⟨hk, hl⟩ := (runningInv_sampling hu).mp hi
    obtain ⟨r, -, e⟩ := step_sampling hu hk hl
    refine ⟨_, eventOf r.op s, e, (leaveSampleRow_trace ..).trans (runRow_trace ..), ?_⟩
    rw [leaveSampleRow_upc]
    by_cases h : k = 42
    · rw [if_neg (by omega), if_pos h]
    · rw [if_pos (by omega), if_neg h]
  · unfold driveLength latchStep slotLength
    split <;> omega

/-- A run of `n` steps through the last `n` rows of a table, one row a step and then the end of the operation, is the
rows as a whole and then the end. `at_ k` is `upc` before row `k`, and `P k` what a state there satisfies. -/
theorem run_through_rows {rows : List MicroStep} {at_ : Nat → Upc} {finish : State → State} {P : Nat → State → Prop}
    (hstep : ∀ k r s, rows[k]? = some r → P k s → s.upc = at_ k →
      step s = .next (if k + 1 < rows.length then { runRow Config.board r s with upc := at_ (k + 1) }
        else finish { runRow Config.board r s with upc := .idle }))
    (hkeep : ∀ k r s, rows[k]? = some r → P k s → P (k + 1) { runRow Config.board r s with upc := at_ (k + 1) })
    (n k : Nat) (s : State) (hn : k + (n + 1) = rows.length) (hP : P k s) (hu : s.upc = at_ k) :
    Host.Core.run core (n + 1) s = .next (finish { runRows Config.board (rows.drop k) s with upc := .idle }) := by
  induction n generalizing k s with
  | zero =>
    have hk : k < rows.length := by omega
    have hr := List.getElem?_eq_getElem hk
    rw [List.drop_eq_getElem_cons hk, List.drop_eq_nil_of_le (by omega), core_run_succ 0 (hstep k _ s hr hP hu),
      if_neg (by omega)]
    rfl
  | succ n ih =>
    have hk : k < rows.length := by omega
    have hr := List.getElem?_eq_getElem hk
    rw [List.drop_eq_getElem_cons hk, core_run_succ (n + 1) (hstep k _ s hr hP hu), if_pos (by omega),
      ih (k + 1) _ (by omega) (hkeep k _ s hr hP) rfl, runRows_upc]
    rfl

theorem set_upc_idle {s : State} (h : s.upc = .idle) : { s with upc := .idle } = s := by
  rw [← h]

/-- A `DRIVE` stepped from its first row (R20). -/
theorem run_driving {s : State} {m : Byte} {b : Bool} (hu : s.upc = .driving m 0 b) :
    Host.Core.run core (driveLength Config.board) s =
      .next (if b then tickTail { frame Config.board m s with upc := .idle }
        else finishDrive Config.board { frame Config.board m s with upc := .idle }) := by
  have hlt := latchStep_lt_driveLength Config.board
  obtain ⟨n, hn⟩ : ∃ n, driveLength Config.board = n + 1 := ⟨_, (Nat.succ_pred (by omega)).symm⟩
  rw [hn]
  refine run_through_rows (rows := driveRows Config.board m) (at_ := fun k => .driving m k b)
    (finish := fun u => if b then tickTail u else finishDrive Config.board u) (P := fun _ _ => True)
    (fun k r s hr _ hu => ?_) (fun _ _ _ _ _ => trivial) n 0 s ?_ trivial hu
  · obtain ⟨r', hr', e⟩ := step_driving hu (driveRows_length Config.board m ▸ (List.getElem?_eq_some_iff.mp hr).1)
    cases hr.symm.trans hr'
    exact e
  · rw [driveRows_length, hn, Nat.zero_add]

/-- A `SAMPLE` stepped from its first row (R20). -/
theorem run_sampling {s : State} {b : Bool} (hu : s.upc = .sampling 0 b) :
    Host.Core.run core 43 s =
      .next (finishSample b { runRows Config.board (sampleRows Config.board) s with upc := .idle }) := by
  refine run_through_rows (rows := sampleRows Config.board) (at_ := fun k => .sampling k b)
    (finish := finishSample b) (P := fun k s => 3 ≤ k → s.lvl.iLoad = true)
    (fun k r s hr hl hu => ?_) (fun k r s hr hl => sampleRow_iLoad hr hl) 42 0 s rfl (by omega) hu
  obtain ⟨r', hr', e⟩ := step_sampling hu (List.getElem?_eq_some_iff.mp hr).1 hl
  cases hr.symm.trans hr'
  exact e

/-- What the rows make of a state in which an operation has begun, once it is idle again: `upc` apart they do not see
that it has begun. -/
theorem runRows_begun_idle (rows : List MicroStep) (u : Upc) {s : State} (hu : s.upc = .idle) :
    { runRows Config.board rows { s with upc := u } with upc := .idle } = runRows Config.board rows s := by
  rw [runRows_upc]
  exact set_upc_idle ((runRows_untouched _ rows s).upc.trans hu)

/-- Settles O50: through the rows, of which none sees that the operation has begun. -/
theorem steppedDriveIsDrive : Obligations.SteppedDriveIsDrive := by
  intro m s hu
  have hrun := run_driving (s := beginDrive m s) (b := false) rfl
  have hrows : { frame Config.board m (beginDrive m s) with upc := .idle } = frame Config.board m s :=
    runRows_begun_idle _ _ hu
  have hexec : exec (.drive m) s = .next (finishDrive Config.board (frame Config.board m s)) := whenIdle_of_idle hu _
  rw [hexec, ← hrows]
  exact hrun

/-- A `SAMPLE`, alone or for `STATUS`, stepped event by event is the whole. -/
theorem run_beginSample (b : Bool) {s : State} (hu : s.upc = .idle) :
    Host.Core.run core 43 (beginSample b s) = whenIdle s (.next (snapshot Config.board b s)) := by
  have hrun := run_sampling (s := beginSample b s) rfl
  have hrows : { runRows Config.board (sampleRows Config.board) (beginSample b s) with upc := .idle } =
      runRows Config.board (sampleRows Config.board) s := runRows_begun_idle _ _ hu
  rw [whenIdle_of_idle hu, snapshot, ← hrows]
  exact hrun

/-- Settles O51, for both callers of `SAMPLE`. -/
theorem steppedSampleIsSample : Obligations.SteppedSampleIsSample :=
  ⟨fun _ _ hu => run_beginSample false hu, fun _ hu => run_beginSample true hu⟩

/-- Settles O52: through the rows, as for `DRIVE`, with the update of the tick after the last. -/
theorem steppedTickIsTick : Obligations.SteppedTickIsTick := by
  intro a s hu hs
  have hrun := run_driving (beginTick_upc_of_driving hs)
  have hrows : { frame Config.board (tickMask s) (beginTick s) with upc := .idle } =
      frame Config.board (tickMask s) { s with mask := tickMask s } :=
    runRows_begun_idle (s := { s with mask := tickMask s }) _ _ hu
  have hexec : exec (.tick a) s = _ := tick_run hu hs
  rw [hexec, ← hrows]
  exact hrun

/-! ### Reset, the index of a slot, and the beginning of an operation -/

/-- Settles O44: at reset no operation runs, no mask is committed and no load pulse is open. -/
theorem invariantsHoldAtReset : Obligations.InvariantsHoldAtReset := by
  refine ⟨(sequencerInv_idle rfl).mpr ⟨rfl, expectedMask_reset.symm⟩,
    (committedInv_idle rfl).mpr ⟨rfl, .inr ⟨rfl, rfl, rfl⟩⟩, (outputInv_idle rfl).mpr ⟨rfl, ?_⟩, ?_,
    runningInv_idle rfl⟩
  · intro m hm
    cases hm
  · intro q hq
    cases hq

theorem bitidx_driving (c : Params) (s : State) (m : Byte) (k : Nat) (b : Bool) :
    bitidx c { s with upc := .driving m k b } =
      if k < 2 ∨ 8 ≤ (k - 2) / slotLength c then none else some (BitVec.ofNat 3 (7 - (k - 2) / slotLength c)) := rfl

theorem bitidx_sampling (c : Params) (s : State) (k : Nat) (b : Bool) :
    bitidx c { s with upc := .sampling k b } =
      if k < 3 ∨ 8 ≤ (k - 3) / 5 then none else some (BitVec.ofNat 3 (7 - (k - 3) / 5)) := rfl

/-- The number of the slot in which a micro-step of `DRIVE` stands. -/
theorem slot_of_driveStep {c : Params} {j r : Nat} (hr : r < slotLength c) :
    (2 + slotLength c * j + r - 2) / slotLength c = j := by
  rw [show 2 + slotLength c * j + r - 2 = slotLength c * j + r by omega, Nat.mul_add_div (by omega),
    Nat.div_eq_of_lt hr, Nat.add_zero]

/-- Settles O53: the slot's number is the quotient by the slot's length. -/
theorem bitIndexCountsDown : Obligations.BitIndexCountsDown := by
  intro c s
  refine ⟨fun m j r b hj hr => ?_, fun j r b hj hr => ?_, fun m k b hk => ?_, fun k b hk => ?_, rfl⟩
  · rw [bitidx_driving, slot_of_driveStep hr, if_neg (by omega)]
  · have hslot : (3 + 5 * j + r - 3) / 5 = j := by omega
    rw [bitidx_sampling, hslot, if_neg (by omega)]
  · have hpos := (slotLength_pos c).1
    refine (bitidx_driving ..).trans (if_pos (hk.imp_right fun hle => ?_))
    rw [Nat.le_div_iff_mul_le (by omega)]
    unfold latchStep at hle
    omega
  · exact (bitidx_sampling ..).trans (if_pos (by omega))

/-! ### The words of the bench, and the event-by-event view (R61, D1) -/

/-- A format H word splits into its operation select and its argument (R61). -/
theorem formatH_fields (op : BitVec 2) (arg : Byte) :
    (op ++ arg).extractLsb' 0 8 = arg ∧ (op ++ arg).extractLsb' 8 2 = op := 
  ⟨BitVec.extractLsb'_append_eq_right, BitVec.extractLsb'_append_eq_left⟩

theorem decode_tickWord (a : Byte) : decode (.h (0b00#2 ++ a)) = .ok (.tick a) := by
  simp [decode, decodeH, formatH_fields]

theorem decode_sampleWord (a : Byte) : decode (.h (0b01#2 ++ a)) = .ok (.sample a) := by
  simp [decode, decodeH, formatH_fields]

theorem decode_driveWord (m : Byte) : decode (.h (0b10#2 ++ m)) = .ok (.drive m) := by
  simp [decode, decodeH, formatH_fields]

/-- A format U word is a micro-operation, if it is anything (R62). -/
theorem decodeU_ok {w : BitVec 8} {i : Instr} (h : decode (.u w) = .ok i) :
    (∃ l v, i = .set l v) ∨ (∃ l, i = .get l) ∨ ∃ n, i = .wait n := by
  simp only [decode, decodeU] at h
  split at h
  · unfold decodeSet at h
    split_ifs at h
    split at h
    · cases h
    · split_ifs at h
      cases h
      exact .inl ⟨_, _, rfl⟩
  · unfold decodeGet at h
    split_ifs at h
    split at h
    · cases h
    · split_ifs at h
      cases h
      exact .inr (.inl ⟨_, rfl⟩)
  · cases h
    exact .inr (.inr ⟨_, rfl⟩)
  · cases h

section Begins

variable {c : Params} {s : State} (hu : s.upc = .idle) (hg : s.grain = .event)
include hu hg

theorem runInstr_tick_begins (a : Byte) : runInstr c (.tick a) s = .next (beginTick s) :=
  (runInstr_begins hg _).trans (whenIdle_of_idle hu _)

theorem runInstr_sample_begins (a : Byte) : runInstr c (.sample a) s = .next (beginSample false s) :=
  (runInstr_begins hg _).trans (whenIdle_of_idle hu _)

theorem runInstr_drive_begins (m : Byte) : runInstr c (.drive m) s = .next (beginDrive m s) :=
  (runInstr_begins hg _).trans (whenIdle_of_idle hu _)

end Begins

/-- A micro-operation runs whole in the event-by-event view too. -/
theorem runInstr_microOp {c : Params} {w : BitVec 8} {i : Instr} {s : State} (hg : s.grain = .event)
    (h : decode (.u w) = .ok i) : runInstr c i s = operate c i s := by
  rw [runInstr_begins hg]
  obtain ⟨l, v, rfl⟩ | ⟨l, rfl⟩ | ⟨n, rfl⟩ := decodeU_ok h <;> rfl

/-- With a code on the bench that decodes, a step of an idle core runs its instruction. -/
theorem step_of_placed {s : State} {code : Code} {rest : List Code} {i : Instr} (hu : s.upc = .idle)
    (hp : s.placed = code :: rest) (hd : decode code = .ok i) :
    step s = runInstr Config.board i { s with placed := rest } := by
  rw [step_eq_advance, advance_of_placed hu hp, runWord, hd]

/-- Settles O8, each clause from the view's own equation. -/
theorem eventViewBeginsAndGoesOn : Obligations.EventViewBeginsAndGoesOn := by
  refine ⟨fun s rest hu hg hp hm => ?_, fun s rest hu hg hp hm => ?_, fun s rest a hu hg hp => ?_,
    fun s rest a hu hg hp => ?_, fun s rest m hu hg hp => ?_, fun s rest w i hu hg hp hd => ?_,
    fun s hn => advance_of_running hn⟩
  · rw [step_eq_advance, advance_of_move hu hp hm]
    exact runInstr_tick_begins (s := { s with moves := rest }) hu hg _
  · rw [step_eq_advance, advance_of_move hu hp hm]
    exact (callStatus_begins (s := { s with moves := rest }) hg).trans (whenIdle_of_idle hu _)
  · rw [step_of_placed hu hp (decode_tickWord a)]
    exact runInstr_tick_begins (s := { s with placed := rest }) hu hg a
  · rw [step_of_placed hu hp (decode_sampleWord a)]
    exact runInstr_sample_begins (s := { s with placed := rest }) hu hg a
  · rw [step_of_placed hu hp (decode_driveWord m)]
    exact runInstr_drive_begins (s := { s with placed := rest }) hu hg m
  · rw [step_of_placed hu hp hd, runInstr_microOp (s := { s with placed := rest }) hg hd, exec_eq_operate]

end Sys2Proof.Proofs

/-! PROOFS of the family of the memories: the registers of the two devices, the line levels and the relays across whole
operations and across the events of a frame, and the pins. -/

namespace Sys2Proof.Proofs

open Sys2Proof Sys2Proof.Machine Sys2Proof.Safety

/-! ### The pins (R47) -/

theorem pinOf_beq (c : Params) (a b : Line) : (c.pinOf a == c.pinOf b) = decide (a = b) := by
  rw [Bool.eq_iff_iff, beq_iff_eq, decide_eq_true_iff]
  exact ⟨pinOf_injective c, congrArg c.pinOf⟩

/-- Settles O59: the search for the line at a pin, run by pins, is the search for the line itself. -/
theorem pinsDoNotAlias : Obligations.PinsDoNotAlias := by
  refine ⟨fun c a b h => pinOf_injective c h, fun c s l => ?_⟩
  simp only [pinLevel, pinOf_beq]
  cases l <;> rfl

/-! ### The output side after a `DRIVE` (R87, R92, R131) -/

/-- While the outputs are enabled the relays are the latches (R131). -/
theorem relays_of_enabled {c : Params} {s : State} (h : s.lvl.oOe = c.oeOn) : relays c s = s.lat := if_pos h

/-- The output register and `DEV_OUT` as a frame of `m` leaves them, whatever they were before (R87, R92). -/
structure Driven (c : Params) (m : Byte) (s : State) : Prop where
  committed : s.committed = some m
  sh        : s.sh = m
  lat       : s.lat = m
  oData     : s.lvl.oData = m.getLsbD 0
  oClk      : s.lvl.oClk = true
  oLatch    : s.lvl.oLatch = true
  oOe       : s.lvl.oOe = c.oeOn

theorem frame_driven (c : Params) (m : Byte) (s : State) : Driven c m (frame c m s) := by
  obtain ⟨t, e, -, hsh, hlat, hcom, hlvl, -⟩ := frame_run c m s
  rw [e]
  exact ⟨hcom, hsh, hlat, by rw [hlvl], by rw [hlvl], by rw [hlvl], by rw [hlvl]⟩

/-- Nothing of the output side is left open by a frame. -/
theorem Driven.sameOutput {c : Params} {m : Byte} {s t : State} (h : Driven c m s) (k : Driven c m t) :
    SameOutput s t :=
  ⟨k.committed.trans h.committed.symm, k.sh.trans h.sh.symm, k.lat.trans h.lat.symm, k.oData.trans h.oData.symm,
    k.oClk.trans h.oClk.symm, k.oLatch.trans h.oLatch.symm, k.oOe.trans h.oOe.symm⟩

theorem Driven.relays_eq {c : Params} {m : Byte} {s : State} (h : Driven c m s) : relays c s = m :=
  (relays_of_enabled h.oOe).trans h.lat

/-- What `DRIVE` hands back changes no register. -/
theorem Driven.finishDrive {c : Params} {m : Byte} {s : State} (h : Driven c m s) :
    Driven c m (finishDrive c s) :=
  ⟨h.committed, h.sh, h.lat, h.oData, h.oClk, h.oLatch, h.oOe⟩

theorem exec_drive_of_idle {s : State} (hu : s.upc = .idle) (m : Byte) :
    exec (.drive m) s = .next (finishDrive Config.board (frame Config.board m s)) :=
  whenIdle_of_idle hu _

/-- All a `DRIVE` does when it answers: it began idle, ends idle, and sent the whole frame. -/
theorem exec_drive_next {m : Byte} {s t : State} (h : exec (.drive m) s = .next t) :
    s.upc = .idle ∧ t.upc = .idle ∧ Driven Config.board m t ∧ t.trace = s.trace ++ frameEvents Config.board m := by
  obtain ⟨hu, e⟩ := whenIdle_eq_next h
  cases e
  have hupc := (frame_untouched Config.board m s).upc
  obtain ⟨_, rfl, -, -, -, -, -, -, -, htrace⟩ := frame_run Config.board m s
  exact ⟨hu, hupc.trans hu, (frame_driven _ m s).finishDrive, htrace⟩

/-- Settles O22: both frames leave the output side in the one state that belongs to `m`. -/
theorem driveAgainChangesNoRelay : Obligations.DriveAgainChangesNoRelay := by
  intro m s t h
  obtain ⟨-, hu, ht, -⟩ := exec_drive_next h
  have h' := exec_drive_of_idle hu m
  obtain ⟨-, -, hd, htrace⟩ := exec_drive_next h'
  exact ⟨_, h', ht.sameOutput hd, hd.relays_eq.trans ht.relays_eq.symm, htrace⟩

/-! ### Inside a frame (R42) -/

/-- Of the rows of `DRIVE` only the one that raises the latch can move the latches (R130). -/
theorem driveRow_lat {c : Params} {m : Byte} {k : Nat} {r : MicroStep} (s : State)
    (h : (driveRows c m)[k]? = some r) (hk : k ≠ latchStep c) : (runRow c r s).lat = s.lat := by
  obtain ⟨-, rfl⟩ | ⟨-, rfl⟩ | ⟨j, q, -, -, -, ⟨-, rfl⟩ | ⟨-, rfl⟩ | ⟨-, -, rfl⟩ | ⟨-, rfl⟩⟩ | ⟨hk', -⟩ | ⟨-, rfl⟩ |
    ⟨-, -, l, -, rfl⟩ := driveRows_at h
  case inr.inr.inr.inl => exact absurd hk' hk
  all_goals rfl

/-- The outputs are enabled in a frame from its second event on, and at its first if a mask is shown (R31, R90). -/
theorem FrameAt.enabled_of {m : Byte} {k : Nat} {s : State} (h : FrameAt m k s) (hk : 1 ≤ k ∨ s.committed ≠ none) :
    s.lvl.oOe = Config.board.oeOn := by
  by_cases h1 : 1 ≤ k
  · exact h.enabled h1
  · obtain ⟨m', hm'⟩ := Option.ne_none_iff_exists'.mp (hk.resolve_left h1)
    exact (h.showsOld (by omega) m' hm').2

/-- Settles O45: after every row the outputs are enabled, so the relays are the latches, which one row alone moves. -/
theorem relaysChangeOnlyAtTheLatch : Obligations.RelaysChangeOnlyAtTheLatch := by
  intro s t m k b hi hu h
  obtain ⟨-, hk, hf⟩ := (outputInv_driving hu).mp hi
  obtain ⟨r, hr, e⟩ := step_driving hu hk
  obtain rfl := Host.Outcome.next.inj (e.symm.trans h)
  have hleave := leaveDriveRow_sameOutput Config.board m k b (runRow Config.board r s)
  have hf' := (hf.next_of_row hr).of_sameOutput hleave
  have hrelays := relays_of_enabled (hf'.enabled (by omega))
  rw [hrelays]
  refine ⟨fun hne => ?_, fun heq => ?_⟩
  · obtain ⟨-, -, hlat, -⟩ := hleave
    have hlat := hlat.trans (driveRow_lat s hr hne)
    exact ⟨hlat, fun hshown => hlat.trans (relays_of_enabled (hf.enabled_of hshown)).symm⟩
  · rw [latchStep_board] at heq
    have hlat := (hf'.showsNew (by omega)).1
    exact ⟨hlat, hlat⟩

/-! ### A `SAMPLE` of lines that hold (R101, R134) -/

theorem Pulse.starting_bit {v : Byte} {i : Nat} {b : Level} (hi : i < 8)
    (h : (if b then (Pulse.starting v).high else (Pulse.starting v).low).getLsbD i = true) : b = v.getLsbD i := by
  cases b with
  | true => exact h.symm
  | false =>
    have h : (~~~v).getLsbD i = true := h
    simpa [hi] using h

/-- Where the input lines show one byte in the whole load pulse, that byte is caught (R134, D14). -/
theorem caughtInPulse_of_steady {s : State} {v r : Byte} (h : CaughtInPulse s r) (hl : ∀ x ∈ pulseLevels s, x = v)
    (hp : PulseSteady s v) : r = v := by
  apply BitVec.eq_of_getLsbD_eq
  intro i hi
  obtain ⟨x, hx, e⟩ | ⟨q, hq, e⟩ := h i hi
  · rw [e, hl x hx]
  · rw [hp q hq] at e
    exact Pulse.starting_bit hi e

theorem pulseLevels_of_hold {s : State} (h : s.upcoming = []) : ∀ x ∈ pulseLevels s, x = s.inputs := by
  simp only [pulseLevels, atLoadLow, passed, h]
  split <;> simp

/-- A `SAMPLE` of lines that hold returns them, and leaves lines that hold and no load pulse open. -/
theorem exec_sample_of_hold {s : State} (a : Byte) (hu : s.upc = .idle) (hs : s.upcoming = [])
    (hp : PulseSteady s s.inputs) :
    ∃ t, exec (.sample a) s = .next t ∧ t.results = s.results ++ [.snapshot s.inputs] ∧ t.upc = .idle ∧
      t.upcoming = [] ∧ t.inputs = s.inputs ∧ t.pulse = none := by
  have hknown : ∀ q, s.pulse = some q → q.low ||| q.high = 0xFF#8 := fun q hq => hp q hq ▸ Pulse.starting_known _
  obtain ⟨t, r, e, hr, -, ⟨hupc, -⟩, hres, -, -, -, -, -, hpulse, -⟩ :=
    snapshot_run Config.board false s hknown rfl rfl
  obtain rfl := caughtInPulse_of_steady hr (pulseLevels_of_hold hs) hp
  obtain ⟨hup, hin⟩ := runRows_inputs_hold Config.board (sampleRows Config.board) s hs
  subst e
  exact ⟨_, whenIdle_of_idle hu _, hres, hupc.trans hu, hup, hin, hpulse⟩

/-- Settles O25: the first sample leaves what the second needs to return the lines as well. -/
theorem sampleRepeats : Obligations.SampleRepeats := by
  intro a b s hu hs hp
  obtain ⟨t, ht, hres, hu', hs', hin, hpulse⟩ := exec_sample_of_hold a hu hs hp
  have hp' : PulseSteady t t.inputs := fun q hq => by cases hpulse.symm.trans hq
  obtain ⟨u, hut, hres', -⟩ := exec_sample_of_hold b hu' hs' hp'
  refine ⟨t, u, ht, hut, ?_⟩
  rw [hres', hres, hin, List.append_assoc]
  rfl

end Sys2Proof.Proofs

/-! PROOFS of the family of the encoding: the words of the three formats field by field, the two round trips of the
code, the refused spellings, and the operations that answer by name. -/

namespace Sys2Proof.Proofs

open Sys2Proof Sys2Proof.Machine Sys2Proof.Safety

/-! ### The tables of lines and of state codes (D2, D4) -/

theorem line_ofIndex_index (l : Line) : Line.ofIndex l.index.toNat = some l := by
  cases l <;> rfl

theorem line_index_of_ofIndex {x : BitVec 3} {l : Line} (h : Line.ofIndex x.toNat = some l) : l.index = x := by
  revert x l
  decide

theorem seqState_ofCode_code (st : SeqState) : SeqState.ofCode st.code.toNat = some st := by
  cases st <;> rfl

theorem seqState_code_of_ofCode {x : BitVec 3} {st : SeqState} (h : SeqState.ofCode x.toNat = some st) :
    st.code = x := by
  revert x st
  decide

theorem arm_wellFormed (st : SeqState) : st.arm.wellFormed = true := by
  cases st <;> rfl

theorem encode_arm (st : SeqState) : encode st.arm = .t st.code := by
  cases st <;> rfl

theorem levelBit_getLsbD (v : Level) : (Level.bit v).getLsbD 0 = v := by
  cases v <;> rfl

theorem levelBit_of_getLsbD (v : BitVec 1) : Level.bit (v.getLsbD 0) = v := by
  revert v
  decide

/-! ### What the decoder reads from a word, given by its fields (R60 to R62) -/

theorem decode_reportWord (r : Byte) : decode (.h (0b11#2 ++ r)) = .ok (.report r) := by
  simp [decode, decodeH, formatH_fields]

theorem decode_stateCode {x : BitVec 3} {st : SeqState} (h : SeqState.ofCode x.toNat = some st) :
    decode (.t x) = .ok st.arm := by
  simp [decode, decodeT, h]

theorem decode_reservedState {x : BitVec 3} (h : SeqState.ofCode x.toNat = none) :
    decode (.t x) = .error .reservedState := by
  simp [decode, decodeT, h]

/-- A format U word of a kind splits into the kind and the other six bits (R62). -/
theorem formatU_fields (kind : BitVec 2) (x : BitVec 6) :
    (kind ++ x).extractLsb' 0 6 = x ∧ (kind ++ x).extractLsb' 6 2 = kind :=
  ⟨BitVec.extractLsb'_append_eq_right, BitVec.extractLsb'_append_eq_left⟩

theorem decode_waitWord (n : BitVec 6) : decode (.u (0b10#2 ++ n)) = .ok (.wait n.toNat) := by
  simp [decode, decodeU, formatU_fields]

theorem decode_reservedKind (x : BitVec 6) : decode (.u (0b11#2 ++ x)) = .error .reservedKind := by
  simp [decode, decodeU, formatU_fields]

/-- The fields of a word of kind `00`: kind, line, level and reserved bits (R62). -/
theorem setWord_fields (l : BitVec 3) (v : BitVec 1) (z : BitVec 2) :
    (0b00#2 ++ l ++ v ++ z).extractLsb' 6 2 = 0b00#2 ∧ (0b00#2 ++ l ++ v ++ z).extractLsb' 3 3 = l ∧
      (0b00#2 ++ l ++ v ++ z).getLsbD 2 = v.getLsbD 0 ∧ (0b00#2 ++ l ++ v ++ z).extractLsb' 0 2 = z := by
  revert l v z
  decide

theorem decode_setWord (l : BitVec 3) (v : BitVec 1) (z : BitVec 2) :
    decode (.u (0b00#2 ++ l ++ v ++ z)) = decodeSet (0b00#2 ++ l ++ v ++ z) := by
  simp only [decode, decodeU, setWord_fields, BitVec.toNat_ofNat, Nat.zero_mod]

theorem decode_setWord_reservedBits (l : BitVec 3) (v : BitVec 1) {z : BitVec 2} (hz : z ≠ 0#2) :
    decode (.u (0b00#2 ++ l ++ v ++ z)) = .error .setReservedBits := by
  rw [decode_setWord]
  simp only [decodeSet, setWord_fields, ne_eq, hz, not_false_eq_true, if_true]

theorem decode_setWord_noLine {l : BitVec 3} (v : BitVec 1) (h : Line.ofIndex l.toNat = none) :
    decode (.u (0b00#2 ++ l ++ v ++ 0b00#2)) = .error .setNoLine := by
  rw [decode_setWord]
  simp only [decodeSet, setWord_fields, ne_eq, not_true_eq_false, if_false, h]

theorem decode_setWord_line {l : BitVec 3} {k : Line} (v : BitVec 1) (h : Line.ofIndex l.toNat = some k) :
    decode (.u (0b00#2 ++ l ++ v ++ 0b00#2)) =
      if k.settable then .ok (.set k (v.getLsbD 0)) else .error .setOnInput := by
  rw [decode_setWord]
  simp only [decodeSet, setWord_fields, ne_eq, not_true_eq_false, if_false, h]

/-- The fields of a word of kind `01`: kind, line and reserved bits (R62). -/
theorem getWord_fields (l z : BitVec 3) :
    (0b01#2 ++ l ++ z).extractLsb' 6 2 = 0b01#2 ∧ (0b01#2 ++ l ++ z).extractLsb' 3 3 = l ∧
      (0b01#2 ++ l ++ z).extractLsb' 0 3 = z := by
  revert l z
  decide

theorem decode_getWord (l z : BitVec 3) :
    decode (.u (0b01#2 ++ l ++ z)) = decodeGet (0b01#2 ++ l ++ z) := by
  simp [decode, decodeU, getWord_fields]

theorem decode_getWord_reservedBits (l : BitVec 3) {z : BitVec 3} (hz : z ≠ 0#3) :
    decode (.u (0b01#2 ++ l ++ z)) = .error .getReservedBits := by
  rw [decode_getWord]
  simp only [decodeGet, getWord_fields, ne_eq, hz, not_false_eq_true, if_true]

theorem decode_getWord_noLine {l : BitVec 3} (h : Line.ofIndex l.toNat = none) :
    decode (.u (0b01#2 ++ l ++ 0b000#3)) = .error .getUnusedLine := by
  rw [decode_getWord]
  simp only [decodeGet, getWord_fields, ne_eq, not_true_eq_false, if_false, h]

theorem decode_getWord_line {l : BitVec 3} {k : Line} (h : Line.ofIndex l.toNat = some k) :
    decode (.u (0b01#2 ++ l ++ 0b000#3)) = if k.gettable then .ok (.get k) else .error .getUnusedLine := by
  rw [decode_getWord]
  simp only [decodeGet, getWord_fields, ne_eq, not_true_eq_false, if_false, h]

/-! ### Decoding a code -/

theorem decode_encode_arm (st : SeqState) : decode (encode st.arm) = .ok st.arm := by
  rw [encode_arm]
  exact decode_stateCode (seqState_ofCode_code st)

theorem decode_encode_set {l : Line} (v : Level) (hl : l.settable = true) :
    decode (encode (.set l v)) = .ok (.set l v) := by
  have h := decode_setWord_line (Level.bit v) (line_ofIndex_index l)
  rwa [if_pos hl, levelBit_getLsbD] at h

theorem decode_encode_get {l : Line} (hl : l.gettable = true) : decode (encode (.get l)) = .ok (.get l) :=
  (decode_getWord_line (line_ofIndex_index l)).trans (if_pos hl)

theorem decode_encode_wait {n : Nat} (hn : n < 64) : decode (encode (.wait n)) = .ok (.wait n) := by
  have h := decode_waitWord (BitVec.ofNat 6 n)
  rwa [BitVec.toNat_ofNat, Nat.mod_eq_of_lt hn] at h

/-- Settles O1, by the rows of the table: each code is a word whose fields the decoder gives back. -/
theorem decodeEncodeRoundTrip : Obligations.DecodeEncodeRoundTrip := by
  intro i hi
  cases i with
  | tick a => exact decode_tickWord a
  | sample a => exact decode_sampleWord a
  | drive m => exact decode_driveWord m
  | report r => exact decode_reportWord r
  | tickRampUp => exact decode_encode_arm .rampUp
  | tickRampDown => exact decode_encode_arm .rampDown
  | tickAllOn => exact decode_encode_arm .allOn
  | tickAllOff => exact decode_encode_arm .allOff
  | tickHaltPending => exact decode_encode_arm .haltPending
  | tickHalted => exact decode_encode_arm .halted
  | set l v => exact decode_encode_set v hi
  | get l => exact decode_encode_get hi
  | wait n => exact decode_encode_wait (of_decide_eq_true hi)

/-! ### Every word is spelled from its fields -/

theorem twoBits_cases (x : BitVec 2) : x = 0b00#2 ∨ x = 0b01#2 ∨ x = 0b10#2 ∨ x = 0b11#2 := by
  revert x
  decide

theorem exists_eq_append {m n : Nat} (w : BitVec (m + n)) : ∃ (x : BitVec m) (y : BitVec n), w = x ++ y :=
  ⟨_, _, BitVec.extractLsb'_append_extractLsb'.symm⟩

theorem setWord_assoc (l : BitVec 3) (v : BitVec 1) (z : BitVec 2) :
    (0b00#2 ++ (l ++ v ++ z) : BitVec 8) = 0b00#2 ++ l ++ v ++ z := by
  revert l v z
  decide

theorem getWord_assoc (l z : BitVec 3) : (0b01#2 ++ (l ++ z) : BitVec 8) = 0b01#2 ++ l ++ z :=
  BitVec.append_assoc'

/-- Every word of format U is spelled in one of its four kinds (R62). -/
theorem formatU_cases (w : BitVec 8) :
    (∃ (l : BitVec 3) (v : BitVec 1) (z : BitVec 2), w = 0b00#2 ++ l ++ v ++ z) ∨
    (∃ l z : BitVec 3, w = 0b01#2 ++ l ++ z) ∨ (∃ n : BitVec 6, w = 0b10#2 ++ n) ∨
    ∃ x : BitVec 6, w = 0b11#2 ++ x := by
  obtain ⟨kind, x, rfl⟩ := exists_eq_append (m := 2) (n := 6) w
  obtain rfl | rfl | rfl | rfl := twoBits_cases kind
  · obtain ⟨lv, z, rfl⟩ := exists_eq_append (m := 4) (n := 2) x
    obtain ⟨l, v, rfl⟩ := exists_eq_append (m := 3) (n := 1) lv
    exact .inl ⟨l, v, z, setWord_assoc l v z⟩
  · obtain ⟨l, z, rfl⟩ := exists_eq_append (m := 3) (n := 3) x
    exact .inr (.inl ⟨l, z, getWord_assoc l z⟩)
  · exact .inr (.inr (.inl ⟨x, rfl⟩))
  · exact .inr (.inr (.inr ⟨x, rfl⟩))

/-! ### What a code of each format decodes to is well formed and has that code (R60 to R62, R70) -/

theorem encode_of_decodeH {w : BitVec 10} {i : Instr} (h : decode (.h w) = .ok i) :
    i.wellFormed = true ∧ encode i = .h w := by
  obtain ⟨op, arg, rfl⟩ := exists_eq_append (m := 2) (n := 8) w
  obtain rfl | rfl | rfl | rfl := twoBits_cases op
  · cases (decode_tickWord arg).symm.trans h
    exact ⟨rfl, rfl⟩
  · cases (decode_sampleWord arg).symm.trans h
    exact ⟨rfl, rfl⟩
  · cases (decode_driveWord arg).symm.trans h
    exact ⟨rfl, rfl⟩
  · cases (decode_reportWord arg).symm.trans h
    exact ⟨rfl, rfl⟩

theorem encode_of_decodeT {x : BitVec 3} {i : Instr} (h : decode (.t x) = .ok i) :
    i.wellFormed = true ∧ encode i = .t x := by
  cases hst : SeqState.ofCode x.toNat with
  | none => cases (decode_reservedState hst).symm.trans h
  | some st =>
    cases (decode_stateCode hst).symm.trans h
    exact ⟨arm_wellFormed st, (encode_arm st).trans (congrArg Code.t (seqState_code_of_ofCode hst))⟩

theorem encode_of_decode_setWord {l : BitVec 3} {v : BitVec 1} {z : BitVec 2} {i : Instr}
    (h : decode (.u (0b00#2 ++ l ++ v ++ z)) = .ok i) :
    i.wellFormed = true ∧ encode i = .u (0b00#2 ++ l ++ v ++ z) := by
  by_cases hz : z = 0#2
  · subst hz
    cases hk : Line.ofIndex l.toNat with
    | none => cases (decode_setWord_noLine v hk).symm.trans h
    | some k =>
      rw [decode_setWord_line v hk] at h
      split_ifs at h with hs
      cases h
      refine ⟨hs, ?_⟩
      rw [encode, levelBit_of_getLsbD, line_index_of_ofIndex hk]
  · cases (decode_setWord_reservedBits l v hz).symm.trans h

theorem encode_of_decode_getWord {l z : BitVec 3} {i : Instr} (h : decode (.u (0b01#2 ++ l ++ z)) = .ok i) :
    i.wellFormed = true ∧ encode i = .u (0b01#2 ++ l ++ z) := by
  by_cases hz : z = 0#3
  · subst hz
    cases hk : Line.ofIndex l.toNat with
    | none => cases (decode_getWord_noLine hk).symm.trans h
    | some k =>
      rw [decode_getWord_line hk] at h
      split_ifs at h with hs
      cases h
      refine ⟨hs, ?_⟩
      rw [encode, line_index_of_ofIndex hk]
  · cases (decode_getWord_reservedBits l hz).symm.trans h

theorem encode_of_decode_waitWord {n : BitVec 6} {i : Instr} (h : decode (.u (0b10#2 ++ n)) = .ok i) :
    i.wellFormed = true ∧ encode i = .u (0b10#2 ++ n) := by
  cases (decode_waitWord n).symm.trans h
  refine ⟨decide_eq_true n.isLt, ?_⟩
  rw [encode, BitVec.ofNat_toNat, BitVec.setWidth_eq]

theorem encode_of_decodeU {w : BitVec 8} {i : Instr} (h : decode (.u w) = .ok i) :
    i.wellFormed = true ∧ encode i = .u w := by
  obtain ⟨l, v, z, rfl⟩ | ⟨l, z, rfl⟩ | ⟨n, rfl⟩ | ⟨x, rfl⟩ := formatU_cases w
  · exact encode_of_decode_setWord h
  · exact encode_of_decode_getWord h
  · exact encode_of_decode_waitWord h
  · cases (decode_reservedKind x).symm.trans h

/-- Settles O2, format by format: the word's own spelling says what it decodes to. -/
theorem encodeDecodeRoundTrip : Obligations.EncodeDecodeRoundTrip := by
  intro c i h
  cases c with
  | h w => exact encode_of_decodeH h
  | t x => exact encode_of_decodeT h
  | u w => exact encode_of_decodeU h

/-! ### Reserved spellings (R70, D24) and spelled words -/

theorem seqState_ofCode_of_le {x : BitVec 3} (h : 6 ≤ x.toNat) : SeqState.ofCode x.toNat = none := by
  revert x
  decide

/-- The line indices that no `GET` names (R70). -/
theorem decode_getWord_unusedLine {l : BitVec 3} (h : 5 ≤ l.toNat) :
    decode (.u (0b01#2 ++ l ++ 0b000#3)) = .error .getUnusedLine := by
  obtain rfl | rfl | rfl : l = 5#3 ∨ l = 6#3 ∨ l = 7#3 := by
    revert l
    decide
  · exact decode_getWord_line (k := .iClk) rfl
  · exact decode_getWord_line (k := .iLoad) rfl
  · exact decode_getWord_noLine rfl

/-- Settles O3, each clause from what the decoder reads from a word of that spelling. -/
theorem reservedSpellingsRefused : Obligations.ReservedSpellingsRefused :=
  ⟨fun _ h => decode_reservedState (seqState_ofCode_of_le h), decode_reservedKind,
    fun l v _ hz => decode_setWord_reservedBits l v hz, fun v => decode_setWord_line (k := .iData) v rfl,
    fun v => decode_setWord_noLine v rfl, fun l _ hz => decode_getWord_reservedBits l hz,
    fun _ h => decode_getWord_unusedLine h, decode_waitWord⟩

/-- Settles O4: every one of the words is the code of its instruction, which is well formed. -/
theorem spelledWordsDecode : Obligations.SpelledWordsDecode :=
  ⟨decodeEncodeRoundTrip (.set .oLatch true) rfl, decodeEncodeRoundTrip (.set .iClk false) rfl,
    decodeEncodeRoundTrip (.get .iData) rfl, decodeEncodeRoundTrip (.wait 5) rfl,
    decodeEncodeRoundTrip (.tick 0x00#8) rfl, decodeEncodeRoundTrip (.sample 0x00#8) rfl,
    decodeEncodeRoundTrip (.drive 0xA5#8) rfl, decodeEncodeRoundTrip (.report 0xFE#8) rfl,
    decodeEncodeRoundTrip .tickHaltPending rfl⟩

theorem runWord_of_error {c : Params} {code : Code} {e : DecodeError} (h : decode code = .error e) (s : State) :
    runWord c code s = .refused (.illegalWord e) := by
  simp only [runWord, h]

/-- Settles O6: an idle core takes the code from the bench, and the decoder's error is the answer. -/
theorem stepRefusesReservedWord : Obligations.StepRefusesReservedWord := by
  intro s code rest e hu hp he
  rw [step_eq_advance, advance_of_placed hu hp, runWord_of_error he]

/-! ### Line accesses that are refused (R70, R134) -/

theorem microOp_of_objection {c : Params} {op : MicroOp} {s : State} {r : Refusal} (h : objection op s = some r) :
    microOp c op s = .refused r := by
  simp only [microOp, h]

theorem objection_set_of_not_settable {l : Line} (hl : l.settable = false) (v : Level) (s : State) :
    objection (.set l v) s = some (.illegalLine l) := by
  simp [objection, hl]

theorem objection_get_of_not_gettable {l : Line} (hl : l.gettable = false) (s : State) :
    objection (.get l) s = some (.illegalLine l) := by
  simp [objection, hl]

/-- The one edge that `objection_set` leaves out (R134, U18). -/
theorem objection_clockEdge_in_loadPulse {s : State} (hc : s.lvl.iClk = false) (hl : s.lvl.iLoad = false) :
    objection (.set .iClk true) s = some .clockDuringLoad := by
  simp [objection, Line.settable, rising, State.level, hc, hl]

theorem exec_set_of_objection {l : Line} {v : Level} {s : State} {r : Refusal}
    (h : objection (.set l v) s = some r) : exec (.set l v) s = .refused r :=
  microOp_of_objection h

theorem exec_get_of_objection {l : Line} {s : State} {r : Refusal} (h : objection (.get l) s = some r) :
    exec (.get l) s = .refused r :=
  microOp_of_objection h

/-- Settles O14, each clause from the objection its access meets. -/
theorem refusedLineAccesses : Obligations.RefusedLineAccesses :=
  ⟨fun v s => exec_set_of_objection (objection_set_of_not_settable rfl v s),
    fun s => exec_get_of_objection (objection_get_of_not_gettable rfl s),
    fun s => exec_get_of_objection (objection_get_of_not_gettable rfl s),
    fun _ hc hl => exec_set_of_objection (objection_clockEdge_in_loadPulse hc hl)⟩

/-! ### The display (R38, R59) -/

theorem displayOrder_eq_range : displayOrder = List.range 8 := rfl

theorem logicalOf_bit (r : Byte) {k : Nat} (hk : k < 8) : dataBit (logicalOf r) k = !r.getLsbD k := by
  simp [dataBit_eq_getLsbD, logicalOf, hk]

theorem displayPattern_length (r : Byte) : (displayPattern r).length = 8 := rfl

theorem displayPattern_getElem? (r : Byte) {k : Nat} (hk : k < 8) :
    (displayPattern r)[k]? = some (if r.getLsbD k then '0' else '1') := by
  rw [displayPattern, displayOrder_eq_range, List.getElem?_map, List.getElem?_range hk, Option.map_some,
    logicalOf_bit r hk]
  cases r.getLsbD k <;> rfl

theorem exec_report_of_idle {s : State} (hu : s.upc = .idle) (r : Byte) :
    exec (.report r) s = .next (giveBack (.report (displayPattern r) (lineRecords r)) s) :=
  whenIdle_of_idle hu _

/-- Settles O26, from the characters of the display, one by one. -/
theorem reportShowsTheComplement : Obligations.ReportShowsTheComplement := fun r _ hu =>
  ⟨displayPattern r, lineRecords r, exec_report_of_idle hu r, displayPattern_length r,
    fun _ hk => displayPattern_getElem? r hk⟩

end Sys2Proof.Proofs

/-! PROOFS of the family of the line accesses: `SET`, `GET` and `WAIT` field by field, and what the load pulse notes
and catches. -/

namespace Sys2Proof.Proofs

open Sys2Proof Sys2Proof.Machine Sys2Proof.Safety

/-! ### Accesses that answer (R76) -/

theorem exec_set_of_no_objection {l : Line} {v : Level} {s : State} (h : objection (.set l v) s = none) :
    exec (.set l v) s = .next (act Config.board (.set l v) s) :=
  microOp_of_no_objection h

theorem exec_get_of_gettable {l : Line} (hl : l.gettable = true) (s : State) :
    exec (.get l) s = .next (act Config.board (.get l) s) :=
  microOp_of_no_objection (objection_get hl)

theorem exec_wait (n : Nat) (s : State) : exec (.wait n) s = .next (act Config.board (.wait n) s) :=
  microOp_of_no_objection (objection_wait n s)

/-! ### What one event leaves alone (R77 to R79) -/

section OneEvent

variable (c : Params) (s : State)

theorem act_sameSequencer (op : MicroOp) : SameSequencer s (act c op s) :=
  have h := act_untouched c op s
  ⟨h.mask, h.cursor, h.state⟩

theorem act_sameHost (op : MicroOp) : SameHost s (act c op s) :=
  have h := act_untouched c op s
  ⟨⟨h.upc, h.moves, h.placed, h.grain⟩, h.results⟩

theorem act_get_sameOutput (l : Line) : SameOutput s (act c (.get l) s) := ⟨rfl, rfl, rfl, rfl, rfl, rfl, rfl⟩

theorem act_get_sameInput (l : Line) : SameInput s (act c (.get l) s) := ⟨rfl, rfl, rfl, rfl⟩

theorem act_wait_sameOutput (n : Nat) : SameOutput s (act c (.wait n) s) := ⟨rfl, rfl, rfl, rfl, rfl, rfl, rfl⟩

theorem act_wait_sameInput (n : Nat) : SameInput s (act c (.wait n) s) := ⟨rfl, rfl, rfl, rfl⟩

end OneEvent

/-! ### `GET` and `WAIT` (R78, R79) -/

/-- A `GET` puts the level of its line into the trace, and changes nothing of the core or the devices (R78). -/
theorem exec_get_reads {l : Line} (hl : l.gettable = true) (s : State) :
    ∃ t, exec (.get l) s = .next t ∧ t.trace = s.trace ++ [.read l (s.level l)] ∧
      SameSequencer s t ∧ SameOutput s t ∧ SameInput s t ∧ SameHost s t :=
  ⟨_, exec_get_of_gettable hl s, act_trace _ _ s, act_sameSequencer _ s _, act_get_sameOutput _ s l,
    act_get_sameInput _ s l, act_sameHost _ s _⟩

/-- Settles O15: the five lines are those that a `GET` may name, each read at its own level. -/
theorem getReadsTheLine : Obligations.GetReadsTheLine := fun s =>
  ⟨exec_get_reads (l := .iData) rfl s, exec_get_reads (l := .oData) rfl s, exec_get_reads (l := .oClk) rfl s,
    exec_get_reads (l := .oLatch) rfl s, exec_get_reads (l := .oOe) rfl s⟩

/-- Settles O16, from what one event leaves alone. -/
theorem waitOnlyPasses : Obligations.WaitOnlyPasses := fun n s =>
  ⟨_, exec_wait n s, act_trace _ _ s, act_sameSequencer _ s _, act_wait_sameOutput _ s n, act_wait_sameInput _ s n,
    act_sameHost _ s _⟩

/-! ### `SET`: its line and the edge it makes (R77, R129, R130, R134, R136) -/

theorem settable_iff {l : Line} : l.settable = true ↔ l ≠ .iData := by
  cases l <;> decide

theorem rising_iff {s : State} {l on : Line} {v : Level} :
    rising s l v on = true ↔ l = on ∧ v = true ∧ s.level on = false := by
  simp [rising, and_assoc]

/-- The time up to an event moves no line of the core, so it makes no edge and hides none. -/
@[simp] theorem rising_atInstant (s : State) (l : Line) (v : Level) (on : Line) :
    rising (atInstant s) l v on = rising s l v on := by
  cases on <;> rfl

section Set

variable (c : Params) {l : Line} (v : Level) (s : State)

theorem act_set_level (hl : l ≠ .iData) : (act c (.set l v) s).level l = v := by
  cases l with
  | iData => exact absurd rfl hl
  | _ => rfl

theorem act_set_level_of_ne {l' : Line} (hne : l' ≠ l) (hl' : l' ≠ .iData) :
    (act c (.set l v) s).level l' = s.level l' := by
  cases l' with
  | iData => exact absurd rfl hl'
  | _ => cases l <;> first | rfl | exact absurd rfl hne

theorem act_set_sh_cases : rising s l v .oClk = true ∨ (act c (.set l v) s).sh = s.sh := by
  by_cases h : rising s l v .oClk = true
  · exact .inl h
  · exact .inr (by simp [act, h])

theorem act_set_lat_cases : rising s l v .oLatch = true ∨ (act c (.set l v) s).lat = s.lat := by
  by_cases h : rising s l v .oLatch = true
  · exact .inl h
  · exact .inr (by simp [act, h])

theorem act_set_p_cases :
    rising s l v .iClk = true ∨ rising s l v .iLoad = true ∨ (act c (.set l v) s).p = s.p := by
  by_cases h : rising s l v .iClk = true
  · exact .inl h
  by_cases h' : rising s l v .iLoad = true
  · exact .inr (.inl h')
  · exact .inr (.inr (by simp [act, h, h']))

end Set

/-- Settles O9: the write meets no objection, and each device moves only on the edge it reacts to. -/
theorem setWritesItsLine : Obligations.SetWritesItsLine := by
  intro l v s hl hedge
  have hno : objection (.set l v) s = none :=
    objection_set (settable_iff.mpr hl) (by simpa only [not_and_or, Bool.not_eq_true, Bool.not_eq_false] using hedge)
  refine ⟨_, exec_set_of_no_objection hno, act_set_level _ v s hl, act_trace _ _ s,
    fun _ hne hl' => act_set_level_of_ne _ v s hne hl', act_sameSequencer _ s _, act_sameHost _ s _,
    act_committed _ _ s, act_acc _ _ s, (act_set_sh_cases _ v s).imp_left rising_iff.mp,
    (act_set_lat_cases _ v s).imp_left rising_iff.mp, ?_⟩
  obtain h | h | h := act_set_p_cases Config.board (l := l) v s
  · obtain ⟨h1, h2, h3⟩ := rising_iff.mp h
    exact .inl ⟨h2, .inl ⟨h1, h3⟩⟩
  · obtain ⟨h1, h2, h3⟩ := rising_iff.mp h
    exact .inl ⟨h2, .inr ⟨h1, h3⟩⟩
  · exact .inr h

/-! ### The load pulse (R134) -/

/-- A pulse notes the levels that the lines pass through, and forgets none. -/
theorem Pulse.adds_see (q : Pulse) (l : List Byte) : Adds q l (q.see l) := by
  intro i hi
  rw [Pulse.see_high, Pulse.see_low q l i hi]
  simp

/-- Of a line of which the pulse knows some level, it tells whatever holds of the levels it has seen. -/
theorem Pulse.tells_of_seen {q : Pulse} (hk : q.low ||| q.high = 0xFF#8) {i : Nat} (hi : i < 8) {P : Level → Prop}
    (h : ∀ b : Level, (if b then q.high else q.low).getLsbD i = true → P b) : q.Tells i P :=
  ⟨Pulse.known_bit hk i hi, h true, h false⟩

/-- What is caught at an event is a level noted before or one that the line took up to the event (R134, D14). -/
theorem captured_atInstant_bit (c : Params) {s : State} {q : Pulse} (hq : s.pulse = some q)
    (hk : q.low ||| q.high = 0xFF#8) {i : Nat} (hi : i < 8) {b : Level}
    (hb : (captured c (atInstant s)).getLsbD i = b) :
    (if b then q.high else q.low).getLsbD i = true ∨ ∃ x ∈ passed s, x.getLsbD i = b := by
  subst hb
  have hpulse : (atInstant s).pulse = some (q.see (passed s)) := by rw [atInstant_pulse, hq, Option.map_some]
  refine captured_bit (P := fun b => (if b then q.high else q.low).getLsbD i = true ∨
    ∃ x ∈ passed s, x.getLsbD i = b) hi hpulse (Pulse.tells_see hi (Pulse.tells_of_seen hk hi fun _ => .inl) ?_)
  exact fun x hx => .inr ⟨x, hx, rfl⟩

theorem exec_set_iLoad (v : Level) (s : State) :
    exec (.set .iLoad v) s = .next (act Config.board (.set .iLoad v) s) :=
  exec_set_of_no_objection (objection_set rfl (.inl (by decide)))

section LoadPulse

variable (c : Params) {s : State} {q : Pulse}

theorem act_loadLow_p (s : State) : (act c (.set .iLoad false) s).p = s.p := by
  simp [act, rising]

/-- With no pulse open, the write of 0 opens one at the levels that the lines have then (log 32). -/
theorem act_loadLow_pulse_of_none (h : s.pulse = none) :
    (act c (.set .iLoad false) s).pulse = some (.starting ((passed s).getLastD s.inputs)) := by
  simp [act, nextPulse, h]

/-- In an open pulse the write of 0 makes no edge, and the pulse goes on (R77). -/
theorem act_loadLow_pulse_of_some (h : s.pulse = some q) :
    (act c (.set .iLoad false) s).pulse = some (q.see (passed s)) := by
  simp [act, nextPulse, h]

theorem act_wait_pulse_of_some (n : Nat) (h : s.pulse = some q) :
    (act c (.wait n) s).pulse = some (q.see (passed s)) := by
  simp [act, h]

theorem act_loadHigh_pulse (s : State) : (act c (.set .iLoad true) s).pulse = none := rfl

theorem act_loadHigh_p (h : s.lvl.iLoad = false) :
    (act c (.set .iLoad true) s).p = captured c (atInstant s) := by
  simp [act, rising, State.level, h]

end LoadPulse

/-- Settles O13: the pulse opens, goes on at a write of 0 or a wait, and ends in a catch of what it has noted. -/
theorem loadPulseCaptures : Obligations.LoadPulseCaptures := by
  refine ⟨fun s hp => ?opens, fun s q hq => ?goesOn, fun s q n hq => ?waits, fun s q hq hknown => ?ends⟩
  case opens =>
    exact ⟨_, exec_set_iLoad false s, act_loadLow_p _ s, act_inputs _ _ s, act_loadLow_pulse_of_none _ hp⟩
  case goesOn =>
    exact ⟨_, _, exec_set_iLoad false s, act_loadLow_p _ s, act_loadLow_pulse_of_some _ hq, Pulse.adds_see q _⟩
  case waits =>
    obtain ⟨-, hp, -, -⟩ := act_wait_sameInput Config.board s n
    exact ⟨_, _, exec_wait n s, hp, act_wait_pulse_of_some _ n hq, Pulse.adds_see q _⟩
  case ends =>
    obtain ⟨hk, hlow⟩ := hknown q hq
    refine ⟨_, exec_set_iLoad true s, act_loadHigh_pulse _ s, fun i hi => ?_⟩
    rw [act_loadHigh_p _ hlow]
    exact ⟨captured_atInstant_bit _ hq hk hi, captured_atInstant_bit _ hq hk hi⟩

end Sys2Proof.Proofs

/-! PROOFS of the family of the output register: the output enable through every step, and `DRIVE` as a whole, its
events, the lines and the device it leaves, and what it returns. -/

namespace Sys2Proof.Proofs

open Sys2Proof Sys2Proof.Machine Sys2Proof.Safety

/-! ### The output enable (R90, D18) -/

theorem enabled_of_sameOutput {c : Params} {s t : State} (h : SameOutput s t) (he : s.lvl.oOe = c.oeOn) :
    t.lvl.oOe = c.oeOn := by
  obtain ⟨-, -, -, -, -, -, hoe⟩ := h
  exact hoe.trans he

/-- The one row of `DRIVE` that writes `O_OE` writes the active level (R87 step 1). -/
theorem driveRow_enabled {c : Params} {m : Byte} {k : Nat} {r : MicroStep} {s : State}
    (h : (driveRows c m)[k]? = some r) (he : s.lvl.oOe = c.oeOn) : (runRow c r s).lvl.oOe = c.oeOn := by
  obtain ⟨-, rfl⟩ | ⟨-, rfl⟩ | ⟨j, q, -, -, -, ⟨-, rfl⟩ | ⟨-, rfl⟩ | ⟨-, -, rfl⟩ | ⟨-, rfl⟩⟩ | ⟨-, rfl⟩ | ⟨-, rfl⟩ |
    ⟨-, -, l, -, rfl⟩ := driveRows_at h
  case inl => rfl
  all_goals exact he

/-- No call of the host disables the outputs: a tick has them enabled by its frame, any other call leaves them. -/
theorem CallMakes.enabled {c : Params} {call : Call} {u t : State} (h : CallMakes c u call t)
    (he : u.lvl.oOe = c.oeOn) : t.lvl.oOe = c.oeOn := by
  by_cases hc : call = .tick
  · subst hc
    cases h with
    | tickHalted _ => exact he
    | tickWhole _ =>
      rw [tickTail_lvl]
      exact (frame_driven c _ _).oOe
    | tickBegins _ => exact he
    | read _ h1 => exact absurd rfl h1
  · exact enabled_of_sameOutput (h.sameOutput hc) he

/-- Settles O46, by the kinds of step there are with nothing on the bench. -/
theorem outputsStayEnabled : Obligations.OutputsStayEnabled := by
  refine ⟨fun s t hp he h => ?_, fun m s hu =>
    ⟨_, exec_drive_of_idle hu m, (frame_driven Config.board m s).finishDrive.oOe⟩⟩
  cases step_makes hp h with
  | driving _ hr => exact enabled_of_sameOutput (leaveDriveRow_sameOutput ..) (driveRow_enabled hr he)
  | sampling _ hr => exact enabled_of_sameOutput (samplingStep_sameOutput s hr) he
  | waits _ => exact he
  | restarts _ _ => exact he
  | calls _ _ ht => exact ht.enabled he

/-! ### The events of a frame (R87, R91, R94) -/

/-- The read-back stands after the frame without it (R91, D12). -/
theorem frameEvents_readBack {c : Params} (m : Byte) (h : c.diagReadback = true) :
    frameEvents c m = frameEvents { c with diagReadback := false } m ++ readBackEvents c.oeOn m := by
  simp [frameEvents, h, Params.oeOn]

/-- The levels a frame puts on `O_DATA` are the bits of its mask, the most significant first, with or without set-up
wait and read-back (R57, R94). -/
theorem frameEvents_dataWritten (c : Params) (m : Byte) :
    (frameEvents c m).filterMap Event.dataWritten = (List.range 8).map fun k => m.getLsbD (7 - k) := by
  unfold frameEvents
  split <;> split <;> rfl

/-! ### `DRIVE` as a whole, under any parameters (R87) -/

theorem drive_of_idle {s : State} (hu : s.upc = .idle) (c : Params) (m : Byte) :
    drive c m s = .next (finishDrive c (frame c m s)) :=
  whenIdle_of_idle hu _

section Drive

variable (c : Params) (m : Byte) (s : State)

theorem frame_trace : (frame c m s).trace = s.trace ++ frameEvents c m := by
  obtain ⟨_, rfl, -, -, -, -, -, -, -, htrace⟩ := frame_run c m s
  exact htrace

theorem frame_lvl : (frame c m s).lvl =
    { s.lvl with oOe := c.oeOn, oLatch := true, oClk := true, oData := m.getLsbD 0 } := by
  obtain ⟨_, rfl, -, -, -, -, hlvl, -⟩ := frame_run c m s
  exact hlvl

/-- A frame writes nothing of the input side (R30). -/
theorem frame_sameInput : SameInput s (frame c m s) := by
  obtain ⟨_, rfl, -, -, -, -, hlvl, hp, hacc, -⟩ := frame_run c m s
  exact ⟨hacc, hp, by rw [hlvl], by rw [hlvl]⟩

/-- A frame, and so a `DRIVE`, writes no register of the sequencer (R30). -/
theorem finishDrive_frame_sameSequencer : SameSequencer s (finishDrive c (frame c m s)) :=
  have h := frame_untouched c m s
  ⟨h.mask, h.cursor, h.state⟩

theorem finishDrive_frame_sameOutside : SameOutside s (finishDrive c (frame c m s)) :=
  have h := frame_untouched c m s
  ⟨h.upc, h.moves, h.placed, h.grain⟩

/-- What a `DRIVE` returns: nothing, or its four lines as it has left them (R91). -/
theorem finishDrive_frame_results : (finishDrive c (frame c m s)).results =
    s.results ++ (if c.diagReadback then [.lineLevels (m.getLsbD 0) true true c.oeOn] else []) := by
  rw [finishDrive_results, frame_lineLevels, (frame_untouched c m s).results]
  split
  · rfl
  · exact (List.append_nil _).symm

end Drive

/-- Settles O20: the frame under any parameters, and then what is returned. -/
theorem driveOnEveryBoard : Obligations.DriveOnEveryBoard := fun c m s hu =>
  have hd := (frame_driven c m s).finishDrive
  ⟨_, drive_of_idle hu c m, frame_trace c m s, frame_lvl c m s, hd.committed, hd.relays_eq,
    finishDrive_frame_sameSequencer c m s, frame_sameInput c m s, finishDrive_frame_sameOutside c m s,
    finishDrive_frame_results c m s⟩

/-- Settles O17: the frame at the parameters of this board, whose output enable is active low. -/
theorem driveSendsTheFrame : Obligations.DriveSendsTheFrame := by
  refine ⟨fun m s hu => ?_, fun c m ht hh hr => ⟨frameEvents_plain c m ht hr hh, rfl⟩, frameEvents_board⟩
  have hd := (frame_driven Config.board m s).finishDrive
  exact ⟨_, exec_drive_of_idle hu m, frame_trace _ m s, hd.oOe, hd.oLatch, hd.oClk, hd.oData, hd.committed,
    finishDrive_frame_sameSequencer _ m s, frame_sameInput _ m s, finishDrive_frame_sameOutside _ m s⟩

/-- Settles O18: eight shifts fill the shift stage, and the latch and the enabled outputs show it. -/
theorem driveSetsTheRelays : Obligations.DriveSetsTheRelays := fun m s hu =>
  have hd := (frame_driven Config.board m s).finishDrive
  ⟨_, exec_drive_of_idle hu m, hd.sh, hd.lat, hd.relays_eq⟩

theorem readCommitted_of_some {m : Byte} {s : State} (h : s.committed = some m) :
    readCommitted s = .next (giveBack (.committed m) s) := by
  simp only [readCommitted, h]

/-- Settles O19: the new events are those of the frame, whose data writes are the bits of `m` in order. -/
theorem driveRoundTripAndBitOrder : Obligations.DriveRoundTripAndBitOrder := by
  intro m s hu
  have hsent : ((finishDrive Config.board (frame Config.board m s)).trace.drop s.trace.length).filterMap
      Event.dataWritten = (List.range 8).map fun k => m.getLsbD (7 - k) := by
    rw [finishDrive_trace, frame_trace, List.drop_left, frameEvents_dataWritten]
  refine ⟨_, exec_drive_of_idle hu m, readCommitted_of_some (frame_driven Config.board m s).finishDrive.committed, ?_⟩
  rw [hsent]
  refine ⟨rfl, fun k hk => ?_⟩
  rw [List.getElem?_map, List.getElem?_range hk]
  rfl

/-- Settles O21: the read-back is the end of the frame and returns the levels the frame has left. -/
theorem driveReadsBackItsLines : Obligations.DriveReadsBackItsLines := by
  intro c m s hu hr
  refine ⟨_, drive_of_idle hu c m, ?_, ?_⟩
  · rw [finishDrive_trace, frame_trace, frameEvents_readBack m hr, List.append_assoc]
  · rw [finishDrive_frame_results, if_pos hr]

end Sys2Proof.Proofs

/-! PROOFS of the family of the input register: what a `SAMPLE` as a whole returns, from the byte caught in its load
pulse. -/

namespace Sys2Proof.Proofs

open Sys2Proof Sys2Proof.Machine Sys2Proof.Safety

theorem exec_sample_of_idle {s : State} (hu : s.upc = .idle) (a : Byte) :
    exec (.sample a) s = .next (snapshot Config.board false s) :=
  whenIdle_of_idle hu _

/-- Settles O23: the byte caught in the load pulse is the one shifted in, so it is what the reads show and what is
returned. -/
theorem sampleReturnsTheCapture : Obligations.SampleReturnsTheCapture := by
  intro a s hu hp
  obtain ⟨_, r, rfl, hcaught, hseq, houtside, hres, -, hlvl, -, -, -, -, htrace⟩ :=
    snapshot_run Config.board false s (fun q hq => (hp q hq).1) rfl rfl
  exact ⟨_, r, exec_sample_of_idle hu a, hcaught, hres, htrace, by rw [hlvl], by rw [hlvl], hseq,
    snapshot_sameOutput _ _ s, houtside⟩

/-- A load pulse that has seen one byte alone has seen some level of every line. -/
theorem levels_known_of_steady {s : State} {v : Byte} (hp : PulseSteady s v) (q : Pulse) (hq : s.pulse = some q) :
    q.low ||| q.high = 0xFF#8 :=
  hp q hq ▸ Pulse.starting_known v

/-- Settles O24: what is caught in a load pulse in which the lines show one byte is that byte. -/
theorem sampleOfStableInputs : Obligations.SampleOfStableInputs := by
  intro a v s hu hl hp
  obtain ⟨_, r, rfl, hcaught, -, -, hres, -⟩ := snapshot_run Config.board false s (levels_known_of_steady hp) rfl rfl
  obtain rfl := caughtInPulse_of_steady hcaught hl hp
  exact ⟨_, exec_sample_of_idle hu a, hres⟩

end Sys2Proof.Proofs

/-! PROOFS of the family of the relay sequencer: what one tick makes of the sequencer's registers, what its frame adds,
the arms one by one, the run table, and HALTED under every step. -/

namespace Sys2Proof.Proofs

open Sys2Proof Sys2Proof.Machine Sys2Proof.Safety

/-! ### The sequencer's registers, and what a tick makes of them (R107 to R113) -/

theorem sameSequencer_symm {s t : State} : SameSequencer s t → SameSequencer t s :=
  fun ⟨hm, hc, hs⟩ => ⟨hm.symm, hc.symm, hs.symm⟩

theorem sameSequencer_trans {s t u : State} : SameSequencer s t → SameSequencer t u → SameSequencer s u :=
  fun ⟨hm, hc, hs⟩ ⟨km, kc, ks⟩ => ⟨km.trans hm, kc.trans hc, ks.trans hs⟩

/-- A tick without its frame: the mask of the selected arm, then the arm's update. -/
def tickUpdate (s : State) : State := tickTail { s with mask := tickMask s }

theorem tickUpdate_of_rampUp {s : State} (h : s.state = .rampUp) :
    tickUpdate s = rampUpTail { s with mask := rampUpMask s } := by
  simp only [tickUpdate, tickTail, tickMask, h]

theorem tickUpdate_of_rampDown {s : State} (h : s.state = .rampDown) :
    tickUpdate s = rampDownTail { s with mask := rampDownMask s } := by
  simp only [tickUpdate, tickTail, tickMask, h]

theorem tickUpdate_of_allOn {s : State} (h : s.state = .allOn) :
    tickUpdate s = { s with mask := 0xFF#8, state := .allOff } := by
  simp only [tickUpdate, tickTail, tickMask, h]

theorem tickUpdate_of_allOff {s : State} (h : s.state = .allOff) :
    tickUpdate s = { s with mask := 0x00#8, state := .haltPending } := by
  simp only [tickUpdate, tickTail, tickMask, h]

theorem tickUpdate_of_haltPending {s : State} (h : s.state = .haltPending) :
    tickUpdate s = { s with mask := 0x00#8, state := .halted } := by
  simp only [tickUpdate, tickTail, tickMask, h]

theorem tickUpdate_of_halted {s : State} (h : s.state = .halted) : tickUpdate s = s := by
  obtain ⟨⟩ := s
  cases h
  rfl

theorem tickUpdate_mask (s : State) : (tickUpdate s).mask = tickMask s := tickTail_mask _

/-- The mask a tick drives depends on the sequencer's registers alone. -/
theorem tickMask_of_sameSequencer {s u : State} (h : SameSequencer s u) : tickMask u = tickMask s := by
  obtain ⟨hm, hc, hs⟩ := h
  simp only [tickMask, rampUpMask, rampDownMask, hm, hc, hs]

/-- The update after the frame depends on the sequencer's registers alone. -/
theorem tickTail_of_sameSequencer {s u : State} (h : SameSequencer s u) :
    SameSequencer (tickTail s) (tickTail u) := by
  obtain ⟨hm, hc, hs⟩ := h
  unfold tickTail
  rw [hs]
  cases s.state <;> simp [SameSequencer, hm, hc, hs]

theorem tickUpdate_of_sameSequencer {s u : State} (h : SameSequencer s u) :
    SameSequencer (tickUpdate s) (tickUpdate u) :=
  tickTail_of_sameSequencer ⟨tickMask_of_sameSequencer h, h.2⟩

/-! ### RAMP_UP and RAMP_DOWN: the cursor at its end and before it (R108, R109) -/

theorem cursor_succ_of_ne_last {x : BitVec 3} (h : x ≠ 7#3) : ¬ x.toNat + 1 = 8 ∧ (x + 1#3).toNat = x.toNat + 1 := by
  revert x; decide

theorem cursor_pred_of_ne_zero {x : BitVec 3} (h : x ≠ 0#3) : (x - 1#3).toNat + 1 = x.toNat := by
  revert x; decide

section Ramps

variable {s : State}

theorem tickUpdate_rampUp_last (h : s.state = .rampUp) (hc : s.cursor = 7#3) :
    (tickUpdate s).state = .rampDown ∧ (tickUpdate s).cursor = 7#3 := by
  simp [tickUpdate_of_rampUp h, hc]

theorem tickUpdate_rampUp_before (h : s.state = .rampUp) (hc : s.cursor ≠ 7#3) :
    (tickUpdate s).state = .rampUp ∧ (tickUpdate s).cursor.toNat = s.cursor.toNat + 1 := by
  obtain ⟨hlt, hsucc⟩ := cursor_succ_of_ne_last hc
  rw [tickUpdate_of_rampUp h, rampUpTail_state, rampUpTail_cursor, if_neg hlt, if_neg hlt]
  exact ⟨h, hsucc⟩

theorem tickUpdate_rampDown_last (h : s.state = .rampDown) (hc : s.cursor = 0#3) :
    (tickUpdate s).state = .allOn ∧ (tickUpdate s).cursor = 0#3 := by
  simp [tickUpdate_of_rampDown h, hc]

theorem tickUpdate_rampDown_before (h : s.state = .rampDown) (hc : s.cursor ≠ 0#3) :
    (tickUpdate s).state = .rampDown ∧ (tickUpdate s).cursor.toNat + 1 = s.cursor.toNat := by
  rw [tickUpdate_of_rampDown h, rampDownTail_state, rampDownTail_cursor, if_neg hc, if_neg hc]
  exact ⟨h, cursor_pred_of_ne_zero hc⟩

end Ramps

/-! ### What a tick that drives does to the rest of the machine -/

/-- A tick that drives: the sequencer's registers are updated, and one frame of the new mask is sent (R107). -/
structure TickDrives (s t : State) : Prop where
  sequencer : SameSequencer (tickUpdate s) t
  committed : t.committed = some t.mask
  lat       : t.lat = t.mask
  trace     : t.trace = s.trace ++ frameEvents Config.board t.mask
  input     : SameInput s t
  host      : SameHost s t

theorem TickDrives.mask {s t : State} (h : TickDrives s t) : t.mask = tickMask s :=
  h.sequencer.1.trans (tickUpdate_mask s)

theorem TickDrives.upc {s t : State} (h : TickDrives s t) : t.upc = s.upc := h.host.1.1

theorem exec_tick_drives {s : State} (hi : s.upc = .idle) (hs : s.state ≠ .halted) (a : Byte) :
    ∃ t, exec (.tick a) s = .next t ∧ TickDrives s t := by
  refine ⟨_, tick_run hi hs, ?_⟩
  obtain ⟨v, e, hk, -, hlat, hcom, hlvl, hp, hacc, htr⟩ :=
    frame_run Config.board (tickMask s) { s with mask := tickMask s }
  rw [e]
  have hmask : (tickTail v).mask = tickMask s := (tickTail_mask v).trans hk.mask
  constructor
  · exact tickTail_of_sameSequencer ⟨hk.mask, hk.cursor, hk.state⟩
  · rw [hmask, tickTail_committed, hcom]
  · rw [hmask, tickTail_lat, hlat]
  · rw [hmask, tickTail_trace, htr]
  · simp [SameInput, hacc, hp, hlvl]
  · simp [SameHost, SameOutside, hk.upc, hk.moves, hk.placed, hk.grain, hk.results]

theorem exec_tick_of_halted {s : State} (hi : s.upc = .idle) (hs : s.state = .halted) (a : Byte) :
    exec (.tick a) s = .next s :=
  tick_of_halted hi hs

/-- Whatever the arm, a tick that answers does to the sequencer's registers what its update says. -/
theorem exec_tick_sequencer {a : Byte} {s t : State} (h : exec (.tick a) s = .next t) :
    SameSequencer (tickUpdate s) t := by
  obtain ⟨hi, ⟨hs, rfl⟩ | ⟨hs, -⟩⟩ := tick_next (c := Config.board) h
  · rw [tickUpdate_of_halted hs]
    exact sameSequencer_refl t
  · obtain ⟨t', ht', hd⟩ := exec_tick_drives hi hs a
    cases h.symm.trans ht'
    exact hd.sequencer

/-! ### The arms (R107 to R113) -/

theorem exec_tick_eq_arm (a : Byte) (s : State) : exec (.tick a) s = exec s.state.arm s := by
  show tick Config.board s = _
  unfold tick
  cases s.state <;> rfl

theorem exec_arm_eq_whenSelected (st : SeqState) (s : State) : ∃ a, exec st.arm s = whenSelected st s a := by
  cases st <;> exact ⟨_, rfl⟩

theorem whenSelected_of_ne {st : SeqState} {s : State} (hi : s.upc = .idle) (hs : s.state ≠ st) (a : Answer) :
    whenSelected st s a = .refused .armNotSelected :=
  (whenIdle_of_idle hi _).trans (if_neg hs)

theorem exec_arm_drives {s : State} {st : SeqState} (hi : s.upc = .idle) (hs : s.state = st) (hne : st ≠ .halted) :
    ∃ t, exec st.arm s = .next t ∧ TickDrives s t := by
  subst hs
  rw [← exec_tick_eq_arm 0x00#8 s]
  exact exec_tick_drives hi hne _

/-- Settles O29: the arm's frame, and its update at the last cursor and before it. -/
theorem tickRampUpSetsOneRelay : Obligations.TickRampUpSetsOneRelay := by
  intro s hi hs
  obtain ⟨t, ht, hd⟩ := exec_arm_drives hi hs (by decide)
  have hmask : t.mask = rampUpMask s := by rw [hd.mask, tickMask, hs]
  obtain ⟨-, hcur, hst⟩ := hd.sequencer
  refine ⟨t, ht, hmask, hd.committed, hd.trace, ?_⟩
  rw [hcur, hst]
  exact ⟨tickUpdate_rampUp_last hs, tickUpdate_rampUp_before hs, hd.input, hd.host⟩

/-- Settles O30, as O29; at cursor 0 the update stores 0 (D7). -/
theorem tickRampDownClearsOneRelay : Obligations.TickRampDownClearsOneRelay := by
  intro s hi hs
  obtain ⟨t, ht, hd⟩ := exec_arm_drives hi hs (by decide)
  have hmask : t.mask = rampDownMask s := by rw [hd.mask, tickMask, hs]
  obtain ⟨-, hcur, hst⟩ := hd.sequencer
  refine ⟨t, ht, hmask, hd.committed, hd.trace, ?_⟩
  rw [hcur, hst]
  exact ⟨tickUpdate_rampDown_last hs, tickUpdate_rampDown_before hs, hd.input, hd.host⟩

/-- An arm whose update is one constant mask and the next state leaves the cursor as it was. -/
theorem exec_arm_constant {s : State} {st next : SeqState} {m : Byte} (hi : s.upc = .idle) (hs : s.state = st)
    (hne : st ≠ .halted) (hu : tickUpdate s = { s with mask := m, state := next }) :
    ∃ t, exec st.arm s = .next t ∧ t.mask = m ∧ t.committed = some m ∧ t.state = next ∧
      t.trace = s.trace ++ frameEvents Config.board m ∧ t.cursor = s.cursor ∧ SameInput s t ∧ SameHost s t := by
  obtain ⟨t, ht, hd⟩ := exec_arm_drives hi hs hne
  have hseq := hd.sequencer
  rw [hu] at hseq
  obtain ⟨rfl, hcur, hst⟩ := hseq
  exact ⟨t, ht, rfl, hd.committed, hst, hd.trace, hcur, hd.input, hd.host⟩

/-- Settles O31: each of the two arms drives its constant mask. -/
theorem tickAllOnThenAllOff : Obligations.TickAllOnThenAllOff :=
  ⟨fun _ hi hs => exec_arm_constant hi hs (by decide) (tickUpdate_of_allOn hs),
    fun _ hi hs => exec_arm_constant hi hs (by decide) (tickUpdate_of_allOff hs)⟩

/-- Settles O32: the arm drives its constant mask before HALTED is reached (C1, D23). -/
theorem tickHaltPendingSendsLastFrame : Obligations.TickHaltPendingSendsLastFrame := fun _ hi hs =>
  exec_arm_constant hi hs (by decide) (tickUpdate_of_haltPending hs)

/-- Settles O33: the arm answers the state it is given. -/
theorem tickHaltedIsInert : Obligations.TickHaltedIsInert := fun _ hi hs => whenSelected_of_state hi hs _

/-- Settles O34: the dispatch, its completion with the frame or without, and the guard of the other arms. -/
theorem tickRunsTheSelectedArm : Obligations.TickRunsTheSelectedArm := by
  refine ⟨exec_tick_eq_arm, fun a s hi => ?_, fun st s hi hne => ?_⟩
  · by_cases hs : s.state = .halted
    · exact ⟨s, exec_tick_of_halted hi hs a, hi, by simp [hs]⟩
    · obtain ⟨t, ht, hd⟩ := exec_tick_drives hi hs a
      exact ⟨t, ht, hd.upc.trans hi, by rw [if_neg hs, hd.trace]⟩
  · obtain ⟨o, ho⟩ := exec_arm_eq_whenSelected st s
    rw [ho, whenSelected_of_ne hi hne.symm]

/-! ### The path of the sequencer (R116) -/

/-- The update keeps the state, in a ramp whose cursor has not run out or in HALTED, or moves it on by one. -/
theorem tickUpdate_state_cases (s : State) :
    ((tickUpdate s).state = s.state ∧
      ((s.state = .rampUp ∧ s.cursor ≠ 7#3) ∨ (s.state = .rampDown ∧ s.cursor ≠ 0#3) ∨ s.state = .halted)) ∨
    (tickUpdate s).state.code.toNat = s.state.code.toNat + 1 := by
  cases hs : s.state with
  | rampUp =>
    by_cases hc : s.cursor = 7#3
    · right
      rw [(tickUpdate_rampUp_last hs hc).1]
      rfl
    · exact .inl ⟨(tickUpdate_rampUp_before hs hc).1, .inl ⟨rfl, hc⟩⟩
  | rampDown =>
    by_cases hc : s.cursor = 0#3
    · right
      rw [(tickUpdate_rampDown_last hs hc).1]
      rfl
    · exact .inl ⟨(tickUpdate_rampDown_before hs hc).1, .inr (.inl ⟨rfl, hc⟩)⟩
  | allOn => right; rw [tickUpdate_of_allOn hs]; rfl
  | allOff => right; rw [tickUpdate_of_allOff hs]; rfl
  | haltPending => right; rw [tickUpdate_of_haltPending hs]; rfl
  | halted => exact .inl ⟨by rw [tickUpdate_of_halted hs, hs], .inr (.inr rfl)⟩

/-- Settles O35: a tick does to the sequencer's registers what its update says, which sees nothing else. -/
theorem tickPathIsFixed : Obligations.TickPathIsFixed := by
  refine ⟨fun a s t h => ?_, fun a s u t _ hu hsu h => ?_⟩
  · obtain ⟨-, -, hst⟩ := exec_tick_sequencer h
    rw [hst]
    exact tickUpdate_state_cases s
  · obtain ⟨-, hcomplete, -⟩ := tickRunsTheSelectedArm
    obtain ⟨v, hv, -⟩ := hcomplete a u hu
    have hup := tickUpdate_of_sameSequencer hsu
    exact ⟨v, hv, sameSequencer_trans (sameSequencer_symm (exec_tick_sequencer h))
      (sameSequencer_trans hup (exec_tick_sequencer hv))⟩

/-! ### The run table (R114, R115) -/

/-- A state whose sequencer stands in row `n` of the run table. -/
def rowState (n : Nat) : State :=
  { State.reset with state := stateAfter n, cursor := cursorAfter n, mask := maskAfter n }

theorem afterTicks_iff {n : Nat} {s : State} : AfterTicks n s ↔ SameSequencer (rowState n) s :=
  ⟨fun ⟨hs, hc, hm⟩ => ⟨hm, hc, hs⟩, fun ⟨hm, hc, hs⟩ => ⟨hs, hc, hm⟩⟩

/-- Every row that drives leads to the next one. -/
theorem sameSequencer_tickUpdate_rowState {n : Nat} (hn : n < 19) :
    SameSequencer (rowState (n + 1)) (tickUpdate (rowState n)) := by
  unfold SameSequencer
  revert n; decide

theorem stateAfter_ne_halted {n : Nat} (hn : n < 19) : stateAfter n ≠ .halted := by
  revert n; decide

theorem drivenMasks_length : drivenMasks.length = 19 := rfl

/-- From tick 19 on the table has one row (R115). -/
theorem afterTicks_of_le {n : Nat} (hn : 19 ≤ n) {s : State} :
    AfterTicks n s ↔ s.state = .halted ∧ s.cursor = 0#3 ∧ s.mask = 0x00#8 := by
  have hstate : stateAfter n = .halted := by
    unfold stateAfter
    iterate 5 rw [if_neg (by omega)]
  have hcursor : cursorAfter n = 0#3 := by
    unfold cursorAfter
    iterate 2 rw [if_neg (by omega)]
  have hmask : maskAfter n = 0x00#8 := by
    obtain rfl | hlt := Nat.eq_or_lt_of_le hn
    · rfl
    · obtain ⟨k, rfl⟩ := Nat.exists_eq_add_of_lt hlt
      exact List.getD_eq_default _ _ (by rw [drivenMasks_length]; omega)
  rw [AfterTicks, hstate, hcursor, hmask]

/-- Settles O36: the rows that drive one by one, and HALTED after them. -/
theorem tickFollowsTheRunTable : Obligations.TickFollowsTheRunTable := by
  intro n a s hi hn
  by_cases hlt : n < 19
  · have hs : s.state ≠ .halted := hn.1 ▸ stateAfter_ne_halted hlt
    obtain ⟨t, ht, hd⟩ := exec_tick_drives hi hs a
    have hrow : AfterTicks (n + 1) t := afterTicks_iff.mpr <|
      sameSequencer_trans (sameSequencer_tickUpdate_rowState hlt) <|
        sameSequencer_trans (tickUpdate_of_sameSequencer (afterTicks_iff.mp hn)) hd.sequencer
    have hmask : t.mask = maskAfter (n + 1) := hrow.2.2
    refine ⟨t, ht, hrow, hd.upc.trans hi, fun m hm => ?_, by omega⟩
    obtain rfl : t.mask = m := by rw [hmask, maskAfter, List.getD_eq_getElem?_getD, hm, Option.getD_some]
    exact ⟨hd.committed, hd.lat, hd.trace⟩
  · have hle : 19 ≤ n := Nat.le_of_not_lt hlt
    have hrow := (afterTicks_of_le hle).mp hn
    refine ⟨s, exec_tick_of_halted hi hrow.1 a, (afterTicks_of_le (by omega)).mpr hrow, hi, fun m hm => ?_,
      fun _ => rfl⟩
    rw [List.getElem?_eq_none (by rwa [drivenMasks_length])] at hm
    cases hm

/-! ### HALTED writes no line of the output register (R113, R158) -/

/-- What has happened from `s` to `t` wrote no line of the output register. -/
def NoOutputWritten (s t : State) : Prop :=
  ∃ new, t.trace = s.trace ++ new ∧ ∀ e ∈ new, Event.onOutputRegister e = false

theorem noOutputWritten_of_trace_eq {s t : State} (h : t.trace = s.trace) : NoOutputWritten s t :=
  ⟨[], by rw [h, List.append_nil], by simp⟩

theorem noOutputWritten_trans {s t u : State} (h : NoOutputWritten s t) (k : NoOutputWritten t u) :
    NoOutputWritten s u := by
  obtain ⟨a, ha, hna⟩ := h
  obtain ⟨b, hb, hnb⟩ := k
  exact ⟨a ++ b, by rw [hb, ha, List.append_assoc], fun e he => (List.mem_append.mp he).elim (hna e) (hnb e)⟩

/-- A row of `SAMPLE` is an event of the input register, or a wait (R97). -/
theorem sampleRow_noOutputWritten {c : Params} {k : Nat} {r : MicroStep} (s : State)
    (h : (sampleRows c)[k]? = some r) : NoOutputWritten s (runRow c r s) := by
  refine ⟨[eventOf r.op s], runRow_trace c r s, List.forall_mem_singleton.mpr ?_⟩
  obtain ⟨-, ⟨-, rfl⟩ | ⟨-, rfl⟩ | ⟨-, rfl⟩ | ⟨-, ⟨v, rfl⟩ | ⟨i, rfl⟩ | rfl⟩⟩ := sampleRows_at h <;> rfl

theorem snapshot_noOutputWritten (c : Params) (b : Bool) (s : State) : NoOutputWritten s (snapshot c b s) :=
  runRows_keeps (rows := sampleRows c) (fun _ => noOutputWritten_of_trace_eq rfl)
    (fun _ _ _ => noOutputWritten_trans)
    (fun _ hr t =>
      have ⟨_, hk⟩ := List.getElem?_of_mem hr
      sampleRow_noOutputWritten t hk) s

/-- In HALTED no call of the host touches the sequencer or the output side, begins a frame, or writes a line of the
output register. -/
theorem CallMakes.inert_of_halted {c : Params} {call : Call} {u t : State} (h : CallMakes c u call t)
    (hu : u.upc = .idle) (hs : u.state = .halted) :
    SameSequencer u t ∧ SameOutput u t ∧ (∀ m k b, t.upc ≠ .driving m k b) ∧ NoOutputWritten u t := by
  cases h with
  | tickHalted _ => exact ⟨sameSequencer_refl u, sameOutput_refl u, by simp [hu], noOutputWritten_of_trace_eq rfl⟩
  | tickWhole hne => exact absurd hs hne
  | tickBegins hne => exact absurd hs hne
  | statusWhole =>
    exact ⟨snapshot_sameSequencer c true u, snapshot_sameOutput c true u, by simp [snapshot_upc, hu],
      snapshot_noOutputWritten c true u⟩
  | statusBegins => exact ⟨sameSequencer_refl u, sameOutput_refl u, by simp, noOutputWritten_of_trace_eq rfl⟩
  | read => exact ⟨sameSequencer_refl u, sameOutput_refl u, by simp [hu], noOutputWritten_of_trace_eq rfl⟩

/-- Settles O49, by the kinds of step there are with nothing on the bench: no frame runs, and none begins. -/
theorem haltedWritesNoOutputLine : Obligations.HaltedWritesNoOutputLine := by
  intro s t hp hn hs hd h
  cases step_makes hp h with
  | driving hu _ => exact absurd hu (hd _ _ _)
  | sampling hu hr =>
    exact ⟨samplingStep_sameSequencer s, samplingStep_sameOutput s hr, leaveSampleRow_upc_ne_driving _ _ _ _,
      noOutputWritten_trans (sampleRow_noOutputWritten s hr) (noOutputWritten_of_trace_eq (leaveSampleRow_trace ..))⟩
  | waits _ => exact ⟨sameSequencer_refl s, sameOutput_refl s, hd, noOutputWritten_of_trace_eq rfl⟩
  | restarts _ hm => exact absurd (by rw [hm]; rfl) hn
  | calls hu _ ht => exact ht.inert_of_halted hu hs

end Sys2Proof.Proofs

/-! PROOFS of the family of the status reporter: the records of `REPORT`, `STATUS` as a `SAMPLE` and a `REPORT`, and the
two orders of one host iteration. -/

namespace Sys2Proof.Proofs

open Sys2Proof Sys2Proof.Machine Sys2Proof.Safety

/-! ### The records of `REPORT` (R122, R123) -/

theorem lineRecords_length (r : Byte) : (lineRecords r).length = 8 := rfl

theorem lineRecords_getElem? (r : Byte) {k : Nat} (hk : k < 8) :
    (lineRecords r)[k]? = some { line := k + 1, raw := r.getLsbD k, logical := !r.getLsbD k } := by
  rw [lineRecords, displayOrder_eq_range, List.getElem?_map, List.getElem?_range hk, Option.map_some,
    logicalOf_bit r hk, dataBit_eq_getLsbD]

/-- Settles O27, record by record. -/
theorem reportListsEveryLine : Obligations.ReportListsEveryLine := fun r _ hu =>
  ⟨displayPattern r, lineRecords r, exec_report_of_idle hu r, lineRecords_length r,
    fun _ hk => lineRecords_getElem? r hk⟩

/-! ### `STATUS` (R124) -/

/-- The `SAMPLE` of a `STATUS` is a `SAMPLE` whose snapshot goes to `REPORT` in place of the host. -/
theorem snapshot_forStatus (c : Params) (s : State) :
    ∃ u, snapshot c false s = u ∧ u.results = s.results ++ [.snapshot u.acc] ∧
      snapshot c true s = giveBack (reportOf u.acc) { u with results := s.results } := by
  have hres := (runRows_untouched c (sampleRows c) s).results
  refine ⟨_, rfl, ?_, ?_⟩ <;> simp [snapshot, finishSample, giveBack, hres]

theorem runMove_status {c : Params} {s : State} (hu : s.upc = .idle) (hg : s.grain = .operation) :
    runMove c (.host .status) s = .next (snapshot c true s) :=
  (callStatus_whole hg).trans (whenIdle_of_idle hu _)

/-- In the whole-operation view a `STATUS` of the host is one step. -/
theorem step_status {s : State} {rest : List Move} (hu : s.upc = .idle) (hg : s.grain = .operation)
    (hp : BenchEmpty s) (hm : s.moves = .host .status :: rest) :
    step s = .next (snapshot Config.board true { s with moves := rest }) :=
  (advance_of_move hu hp hm).trans (runMove_status (s := { s with moves := rest }) hu hg)

/-- Settles O28: the snapshot is what the `SAMPLE` has left in the accumulator. -/
theorem statusIsSampleThenReport : Obligations.StatusIsSampleThenReport := by
  intro s rest hu hg hp hm
  obtain ⟨u, hsample, hres, hstatus⟩ := snapshot_forStatus Config.board { s with moves := rest }
  have hupc : u.upc = .idle := by
    rw [← hsample, snapshot_upc]
    exact hu
  refine ⟨_, u, u.acc, ?_, hres, exec_report_of_idle (s := { u with results := s.results }) hupc _, ?_⟩
  · rw [← hsample]
    exact exec_sample_of_idle (s := { s with moves := rest }) hu _
  · rw [step_status hu hg hp hm, hstatus]
    rfl

/-- Of lines that hold, a `SAMPLE` or a `STATUS` returns the levels (R101, R124). -/
theorem snapshot_results_of_hold (b : Bool) {s : State} (hs : s.upcoming = []) (hp : PulseSteady s s.inputs) :
    (snapshot Config.board b s).results = s.results ++ [if b then reportOf s.inputs else .snapshot s.inputs] := by
  obtain ⟨_, r, rfl, hcaught, -, -, hres, -⟩ := snapshot_run Config.board b s (levels_known_of_steady hp) rfl rfl
  obtain rfl := caughtInPulse_of_steady hcaught (pulseLevels_of_hold hs) hp
  exact hres

theorem snapshot_instant (c : Params) (b : Bool) (s : State) : (snapshot c b s).instant = s.instant + 43 :=
  (runRows_instant c (sampleRows c) s).trans (by rw [sampleRows_length])

/-! ### What a `TICK` leaves of the input lines (R29, R30) -/

/-- If the input lines hold from `s` on, then in `t` they hold at the same levels, and the load pulse is as it was. -/
def InputsHeld (s t : State) : Prop :=
  s.upcoming = [] → t.upcoming = [] ∧ t.inputs = s.inputs ∧ t.pulse = s.pulse

theorem inputsHeld_refl (s : State) : InputsHeld s s := fun h => ⟨h, rfl, rfl⟩

theorem inputsHeld_trans (s t u : State) (h : InputsHeld s t) (k : InputsHeld t u) : InputsHeld s u := fun hs =>
  have ⟨ht, hi, hp⟩ := h hs
  have ⟨hu, ki, kp⟩ := k ht
  ⟨hu, ki.trans hi, kp.trans hp⟩

theorem InputsHeld.pulseSteady {s t : State} (h : InputsHeld s t) (hs : s.upcoming = [])
    (hp : PulseSteady s s.inputs) : PulseSteady t t.inputs := by
  obtain ⟨-, hi, hpulse⟩ := h hs
  intro q hq
  rw [hi]
  exact hp q (hpulse ▸ hq)

/-- A row of `DRIVE` is no end of the load pulse, and opens none (R30, R134). -/
theorem driveRow_pulse {c : Params} {m : Byte} {k : Nat} {r : MicroStep} (s : State)
    (h : (driveRows c m)[k]? = some r) : (runRow c r s).pulse = s.pulse.map fun q => q.see (passed s) := by
  obtain ⟨-, rfl⟩ | ⟨-, rfl⟩ | ⟨j, q, -, -, -, ⟨-, rfl⟩ | ⟨-, rfl⟩ | ⟨-, -, rfl⟩ | ⟨-, rfl⟩⟩ | ⟨-, rfl⟩ | ⟨-, rfl⟩ |
    ⟨-, -, l, -, rfl⟩ := driveRows_at h <;> rfl

theorem driveRow_inputsHeld {c : Params} {m : Byte} {k : Nat} {r : MicroStep} (s : State)
    (h : (driveRows c m)[k]? = some r) : InputsHeld s (runRow c r s) := by
  intro hs
  obtain ⟨hup, hin⟩ := runRows_inputs_hold c [r] s hs
  refine ⟨hup, hin, ?_⟩
  rw [driveRow_pulse s h, passed, hs]
  exact Option.map_id'

theorem frame_inputsHeld (c : Params) (m : Byte) (s : State) : InputsHeld s (frame c m s) :=
  runRows_keeps (rows := driveRows c m) inputsHeld_refl inputsHeld_trans
    (fun _ hr t =>
      have ⟨_, hk⟩ := List.getElem?_of_mem hr
      driveRow_inputsHeld t hk) s

section Tick

variable {a : Byte} {s t : State}

theorem exec_tick_sameHost (h : exec (.tick a) s = .next t) : SameHost s t := by
  obtain ⟨hi, ⟨-, rfl⟩ | ⟨hs, -⟩⟩ := tick_next (c := Config.board) h
  · exact ⟨⟨rfl, rfl, rfl, rfl⟩, rfl⟩
  · obtain ⟨t', ht', hd⟩ := exec_tick_drives hi hs a
    cases h.symm.trans ht'
    exact hd.host

theorem exec_tick_inputsHeld (h : exec (.tick a) s = .next t) : InputsHeld s t := by
  obtain ⟨-, ⟨-, rfl⟩ | ⟨-, rfl⟩⟩ := tick_next (c := Config.board) h
  · exact inputsHeld_refl t
  · intro hs
    rw [tickTail_upcoming, tickTail_inputs, tickTail_pulse]
    exact frame_inputsHeld Config.board (tickMask s) { s with mask := tickMask s } hs

/-- Except in HALTED, a tick leaves the output side as its frame does (R107). -/
theorem exec_tick_driven (h : exec (.tick a) s = .next t) (hs : s.state ≠ .halted) :
    Driven Config.board (tickMask s) t := by
  obtain ⟨-, ⟨hs', -⟩ | ⟨-, rfl⟩⟩ := tick_next (c := Config.board) h
  · exact absurd hs' hs
  · have hd := frame_driven Config.board (tickMask s) { s with mask := tickMask s }
    constructor <;> simp [hd.committed, hd.sh, hd.lat, hd.oData, hd.oClk, hd.oLatch, hd.oOe]

theorem exec_tick_eq_of_halted (h : exec (.tick a) s = .next t) (hs : s.state = .halted) : t = s := by
  obtain ⟨-, ⟨-, e⟩ | ⟨hs', -⟩⟩ := tick_next (c := Config.board) h
  · exact e
  · exact absurd hs hs'

theorem exec_tick_answers (hi : s.upc = .idle) (a : Byte) : ∃ t, exec (.tick a) s = .next t := by
  obtain ⟨-, hcomplete, -⟩ := tickRunsTheSelectedArm
  obtain ⟨t, ht, -⟩ := hcomplete a s hi
  exact ⟨t, ht⟩

end Tick

/-! ### The output side, compared (R131) -/

theorem sameOutput_symm {s t : State} : SameOutput s t → SameOutput t s :=
  fun ⟨h1, h2, h3, h4, h5, h6, h7⟩ => ⟨h1.symm, h2.symm, h3.symm, h4.symm, h5.symm, h6.symm, h7.symm⟩

theorem Driven.of_sameOutput {c : Params} {m : Byte} {s t : State} (h : Driven c m s) :
    SameOutput s t → Driven c m t :=
  fun ⟨h1, h2, h3, h4, h5, h6, h7⟩ => ⟨h1.trans h.committed, h2.trans h.sh, h3.trans h.lat, h4.trans h.oData,
    h5.trans h.oClk, h6.trans h.oLatch, h7.trans h.oOe⟩

/-- At the same instant the relays depend on the output side alone, be the outputs enabled or not (R131, D16). -/
theorem relays_of_sameOutput (c : Params) {s t : State} (h : SameOutput s t) (hi : t.instant = s.instant) :
    relays c t = relays c s := by
  obtain ⟨-, -, hlat, -, -, -, hoe⟩ := h
  rw [relays, relays, hlat, hoe, hi]

/-! ### The two orders of one host iteration (R124, R152, D19) -/

/-- What a `TICK` of the host makes of `s`, whatever is to be called after it (R107, R30). -/
structure Ticks (s t : State) : Prop where
  sequencer : SameSequencer (tickUpdate s) t
  halted    : s.state = .halted → SameOutput s t ∧ t.instant = s.instant
  driven    : s.state ≠ .halted → Driven Config.board (tickMask s) t
  input     : InputsHeld s t
  results   : t.results = s.results

/-- What a `STATUS` of the host makes of `s`, whatever is to be called after it (R124, R30). -/
structure Reports (s t : State) : Prop where
  sequencer : SameSequencer s t
  output    : SameOutput s t
  instant   : t.instant = s.instant + 43
  results   : s.upcoming = [] → PulseSteady s s.inputs → t.results = s.results ++ [reportOf s.inputs]

theorem ticks_of_exec {a : Byte} {s t : State} (h : exec (.tick a) s = .next t) : Ticks s t where
  sequencer := exec_tick_sequencer h
  halted hs := by
    rw [exec_tick_eq_of_halted h hs]
    exact ⟨sameOutput_refl s, rfl⟩
  driven hs := exec_tick_driven h hs
  input := exec_tick_inputsHeld h
  results := (exec_tick_sameHost h).2

theorem reports_snapshot (s : State) : Reports s (snapshot Config.board true s) :=
  ⟨snapshot_sameSequencer .., snapshot_sameOutput .., snapshot_instant .., snapshot_results_of_hold true⟩

theorem Ticks.of_moves {s t : State} {rest : List Move} (h : Ticks { s with moves := rest } t) : Ticks s t where
  sequencer :=
    have hsame : SameSequencer s { s with moves := rest } := ⟨rfl, rfl, rfl⟩
    sameSequencer_trans (tickUpdate_of_sameSequencer hsame) h.sequencer
  halted := h.halted
  driven := h.driven
  input := h.input
  results := h.results

theorem Reports.of_moves {s t : State} {rest : List Move} (h : Reports { s with moves := rest } t) : Reports s t :=
  ⟨h.sequencer, h.output, h.instant, h.results⟩

section HostIteration

variable {s : State} {rest : List Move} (hu : s.upc = .idle) (hg : s.grain = .operation) (hp : BenchEmpty s)

include hu hg hp

/-- In the whole-operation view a `TICK` of the host is one step. -/
theorem step_ticks (hm : s.moves = .host .tick :: rest) :
    ∃ t, step s = .next t ∧ Ticks s t ∧ SameOutside { s with moves := rest } t := by
  obtain ⟨t, ht⟩ := exec_tick_answers (s := { s with moves := rest }) hu 0x00#8
  refine ⟨t, ?_, (ticks_of_exec ht).of_moves, (exec_tick_sameHost ht).1⟩
  rw [step_eq_advance, advance_of_move hu hp hm]
  exact (runInstr_whole (s := { s with moves := rest }) hg _).trans ht

theorem step_reports (hm : s.moves = .host .status :: rest) :
    ∃ t, step s = .next t ∧ Reports s t ∧ SameOutside { s with moves := rest } t := by
  have h := runRows_untouched Config.board (sampleRows Config.board) { s with moves := rest }
  exact ⟨_, step_status hu hg hp hm, (reports_snapshot _).of_moves, h.upc, h.moves, h.placed, h.grain⟩

theorem run_tick_status (hm : s.moves = [.host .tick, .host .status]) :
    ∃ a t, Host.Core.run core 2 s = .next t ∧ Ticks s a ∧ Reports a t := by
  obtain ⟨a, hstep, ha, hupc, hmoves, hplaced, hgrain⟩ := step_ticks hu hg hp hm
  obtain ⟨t, hstep', ht, -⟩ := step_reports (hupc.trans hu) (hgrain.trans hg) (hplaced.trans hp) hmoves
  exact ⟨a, t, (core_run_succ 1 hstep).trans (core_run_succ 0 hstep'), ha, ht⟩

theorem run_status_tick (hm : s.moves = [.host .status, .host .tick]) :
    ∃ b u, Host.Core.run core 2 s = .next u ∧ Reports s b ∧ Ticks b u := by
  obtain ⟨b, hstep, hb, hupc, hmoves, hplaced, hgrain⟩ := step_reports hu hg hp hm
  obtain ⟨u, hstep', ht, -⟩ := step_ticks (hupc.trans hu) (hgrain.trans hg) (hplaced.trans hp) hmoves
  exact ⟨b, u, (core_run_succ 1 hstep).trans (core_run_succ 0 hstep'), hb, ht⟩

end HostIteration

/-! Of the two orders `a` and `b` are the states between the calls, `t` and `u` those after them. -/

section Commute

variable {s a t b u : State} (ha : Ticks s a) (ht : Reports a t) (hb : Reports s b) (hu : Ticks b u)

include ha ht hb hu

theorem commuted_sameSequencer : SameSequencer t u :=
  sameSequencer_trans (sameSequencer_symm (sameSequencer_trans ha.sequencer ht.sequencer))
    (sameSequencer_trans (tickUpdate_of_sameSequencer hb.sequencer) hu.sequencer)

/-- Both ticks drive the same mask; in HALTED neither does anything, and as many events have happened. -/
theorem commuted_sameOutput : SameOutput t u ∧ relays Config.board t = relays Config.board u := by
  obtain ⟨-, -, hst⟩ := hb.sequencer
  by_cases hs : s.state = .halted
  · obtain ⟨houta, hinsta⟩ := ha.halted hs
    obtain ⟨houtu, hinstu⟩ := hu.halted (hst.trans hs)
    have hsame : SameOutput t u :=
      sameOutput_trans (sameOutput_symm (sameOutput_trans houta ht.output)) (sameOutput_trans hb.output houtu)
    have hinstant : u.instant = t.instant := by rw [hinstu, hb.instant, ht.instant, hinsta]
    exact ⟨hsame, (relays_of_sameOutput _ hsame hinstant).symm⟩
  · have hdt := (ha.driven hs).of_sameOutput ht.output
    have hdu := hu.driven (hst ▸ hs)
    rw [tickMask_of_sameSequencer hb.sequencer] at hdu
    exact ⟨hdt.sameOutput hdu, hdt.relays_eq.trans hdu.relays_eq.symm⟩

/-- The tick returns nothing, and leaves of the input lines what the `STATUS` needs to report them. -/
theorem commuted_results (hhold : s.upcoming = []) (hsteady : PulseSteady s s.inputs) : t.results = u.results := by
  obtain ⟨hupcoming, hinputs, -⟩ := ha.input hhold
  calc t.results = a.results ++ [reportOf a.inputs] := ht.results hupcoming (ha.input.pulseSteady hhold hsteady)
    _ = s.results ++ [reportOf s.inputs] := by rw [ha.results, hinputs]
    _ = b.results := (hb.results hhold hsteady).symm
    _ = u.results := hu.results.symm

end Commute

/-- Settles O55: `STATUS` leaves the sequencer and the output side, and the tick leaves what the `STATUS` returns. -/
theorem tickAndStatusCommute : Obligations.TickAndStatusCommute := by
  intro s hidle hg hp
  obtain ⟨a, t, hrun, ha, ht⟩ := run_tick_status (s := { s with moves := hostIteration false }) hidle hg hp rfl
  obtain ⟨b, u, hrun', hb, hu⟩ := run_status_tick (s := { s with moves := hostIteration true }) hidle hg hp rfl
  have ha := ha.of_moves
  have hb := hb.of_moves
  obtain ⟨hout, hrelays⟩ := commuted_sameOutput ha ht hb hu
  exact ⟨t, u, hrun, hrun', commuted_sameSequencer ha ht hb hu, hout, hrelays, commuted_results ha ht hb hu⟩

end Sys2Proof.Proofs

/-! PROOFS of the family of the two devices: what the load pulse keeps through every step, and what the shift registers
do at the edges of their clocks and of the output latch. -/

namespace Sys2Proof.Proofs

open Sys2Proof Sys2Proof.Machine Sys2Proof.Safety

/-! ### What keeps the pulse known (R134, D14) -/

/-- The invariant speaks of the load pulse and of the level of `I_LOAD` alone. -/
theorem pulseKnown_of_same {s t : State} (h : PulseKnown s) (hp : t.pulse = s.pulse)
    (hl : t.lvl.iLoad = s.lvl.iLoad) : PulseKnown t := by
  unfold PulseKnown at *
  rwa [hp, hl]

/-- The levels that the lines pass through up to an event are added to a pulse, and none is forgotten. -/
theorem pulseKnown_atInstant {s : State} (h : PulseKnown s) : PulseKnown (atInstant s) := by
  intro q hq
  obtain ⟨q₀, hq₀, rfl⟩ := Option.map_eq_some_iff.mp hq
  obtain ⟨hk, hl⟩ := h q₀ hq₀
  exact ⟨Pulse.see_known hk _, hl⟩

theorem nextPulse_iLoad_high (s : State) : nextPulse .iLoad true s = none := rfl

theorem nextPulse_iLoad_low (s : State) : nextPulse .iLoad false s = some (s.pulse.getD (.starting s.inputs)) := rfl

theorem nextPulse_of_ne {l : Line} (h : l ≠ .iLoad) (v : Level) (s : State) : nextPulse l v s = s.pulse := by
  simp [nextPulse, h]

theorem setLevel_iLoad_of_ne {l : Line} (h : l ≠ .iLoad) (lv : Levels) (v : Level) :
    (setLevel lv l v).iLoad = lv.iLoad := by
  cases l with
  | iLoad => exact absurd rfl h
  | _ => rfl

/-- The pulse in progress at a write of 0, or the one it opens, knows some level of every line (R134, log 32). -/
theorem pulseKnown_getD_starting {s : State} (h : PulseKnown s) :
    (s.pulse.getD (.starting s.inputs)).low ||| (s.pulse.getD (.starting s.inputs)).high = 0xFF#8 := by
  cases hp : s.pulse with
  | none => exact Pulse.starting_known s.inputs
  | some q => exact (h q hp).1

/-- A write of 1 to `I_LOAD` leaves no pulse, a write of 0 leaves one with the line low, and a write of another line
touches neither. -/
theorem pulseKnown_lineWrite {s : State} (h : PulseKnown s) (c : Params) (l : Line) (v : Level) :
    PulseKnown (lineWrite c l v s) := by
  by_cases hl : l = .iLoad
  · subst hl
    intro q hq
    rw [lineWrite_pulse] at hq
    cases v with
    | true => cases (nextPulse_iLoad_high s).symm.trans hq
    | false =>
      cases (nextPulse_iLoad_low s).symm.trans hq
      exact ⟨pulseKnown_getD_starting h, rfl⟩
  · exact pulseKnown_of_same h (nextPulse_of_ne hl v s) (setLevel_iLoad_of_ne hl s.lvl v)

theorem pulseKnown_act {s : State} (h : PulseKnown s) (c : Params) (op : MicroOp) : PulseKnown (act c op s) := by
  cases op with
  | set l v => exact pulseKnown_lineWrite (pulseKnown_atInstant h) c l v
  | get _ => exact pulseKnown_atInstant h
  | wait _ => exact pulseKnown_atInstant h

theorem pulseKnown_runRow {s : State} (h : PulseKnown s) (c : Params) (r : MicroStep) : PulseKnown (runRow c r s) :=
  pulseKnown_of_same (pulseKnown_act h c r.op) (applyNote_pulse _ _) (congrArg Levels.iLoad (applyNote_lvl _ _))

theorem pulseKnown_runRows {s : State} (h : PulseKnown s) (c : Params) (rows : List MicroStep) :
    PulseKnown (runRows c rows s) :=
  runRows_keeps (P := fun s t => PulseKnown s → PulseKnown t) (fun _ => id) (fun _ _ _ hst htu => htu ∘ hst)
    (fun r _ _ hs => pulseKnown_runRow hs c r) s h

/-! ### The invariant through a step -/

theorem pulseKnown_tickTail {s : State} (h : PulseKnown s) : PulseKnown (tickTail s) :=
  pulseKnown_of_same h (tickTail_pulse s) (congrArg Levels.iLoad (tickTail_lvl s))

theorem pulseKnown_leaveDriveRow {s : State} (h : PulseKnown s) (c : Params) (m : Byte) (k : Nat) (b : Bool) :
    PulseKnown (leaveDriveRow c m k b s) := by
  obtain ⟨-, e⟩ | ⟨-, -, e⟩ | ⟨-, -, e⟩ := leaveDriveRow_cases c m k b s <;> rw [e]
  · exact h
  · exact pulseKnown_tickTail (s := { s with upc := .idle }) h
  · exact h

theorem pulseKnown_leaveSampleRow {s : State} (h : PulseKnown s) (c : Params) (k : Nat) (b : Bool) :
    PulseKnown (leaveSampleRow c k b s) := by
  obtain ⟨-, e⟩ | ⟨-, e⟩ := leaveSampleRow_cases c k b s <;> rw [e] <;> exact h

/-- Whatever an idle core makes, the bench among it: single events, or the rows of an operation. -/
theorem pulseKnown_made {c : Params} {u t : State} (h : PulseKnown u) (hm : Made c u t) : PulseKnown t := by
  obtain rfl | rfl | ⟨r, rfl⟩ | ⟨op, -, rfl⟩ | ⟨b, rfl⟩ | ⟨m, rfl⟩ | ⟨-, rfl⟩ | rfl | ⟨m, rfl⟩ | ⟨b, rfl⟩ := hm
  · exact h
  · exact h
  · exact h
  · exact pulseKnown_act h c op
  · exact pulseKnown_runRows h c (sampleRows c)
  · exact pulseKnown_runRows h c (driveRows c m)
  · exact pulseKnown_tickTail (pulseKnown_runRows (s := { u with mask := tickMask u }) h c _)
  · exact h
  · exact h
  · exact h

/-- Settles O39: every step is a row of a running operation or made of events by an idle core. -/
theorem pulseLevelsStayKnown : Obligations.PulseLevelsStayKnown := by
  intro s t h hstep
  obtain ⟨m, k, b, r, -, -, rfl⟩ | ⟨k, b, r, -, -, rfl⟩ | ⟨-, u, hu, hm⟩ := advance_next hstep
  · exact pulseKnown_leaveDriveRow (pulseKnown_runRow h _ r) _ m k b
  · exact pulseKnown_leaveSampleRow (pulseKnown_runRow h _ r) _ k b
  · obtain ⟨codes, moves, rfl⟩ := hu.eq
    exact pulseKnown_made (u := { s with placed := codes, moves := moves }) h hm

/-! ### The devices at the edges of a `SET` (R129, R130, R136) -/

theorem exec_set_next {l : Line} {v : Level} {s t : State} (h : exec (.set l v) s = .next t) :
    t = act Config.board (.set l v) s :=
  (microOp_next h).2

theorem exec_get_next {l : Line} {s t : State} (h : exec (.get l) s = .next t) : t = act Config.board (.get l) s :=
  (microOp_next h).2

theorem exec_wait_next {n : Nat} {s t : State} (h : exec (.wait n) s = .next t) : t = act Config.board (.wait n) s :=
  Host.Outcome.next.inj (h.symm.trans (exec_wait n s))

/-- A write to a line other than `I_CLK` that can be set always answers. -/
theorem exec_set_of_ne_iClk {l : Line} (hs : l.settable = true) (hl : l ≠ .iClk) (v : Level) (s : State) :
    exec (.set l v) s = .next (act Config.board (.set l v) s) :=
  exec_set_of_no_objection (objection_set hs (.inl hl))

section Edges

variable (c : Params) {l : Line} {v : Level} {s : State}

theorem act_set_sh_of_no_edge (h : ¬ (l = .oClk ∧ v = true ∧ s.lvl.oClk = false)) :
    (act c (.set l v) s).sh = s.sh :=
  (act_set_sh_cases c v s).resolve_left (mt rising_iff.mp h)

theorem act_set_lat_of_no_edge (h : ¬ (l = .oLatch ∧ v = true ∧ s.lvl.oLatch = false)) :
    (act c (.set l v) s).lat = s.lat :=
  (act_set_lat_cases c v s).resolve_left (mt rising_iff.mp h)

theorem act_set_p_of_no_edge (hclk : ¬ (l = .iClk ∧ v = true ∧ s.lvl.iClk = false))
    (hload : ¬ (l = .iLoad ∧ v = true ∧ s.lvl.iLoad = false)) : (act c (.set l v) s).p = s.p :=
  ((act_set_p_cases c v s).resolve_left (mt rising_iff.mp hclk)).resolve_left (mt rising_iff.mp hload)

theorem act_outputClock_sh (h : s.lvl.oClk = false) :
    (act c (.set .oClk true) s).sh = shiftOut s.sh s.lvl.oData := by
  simp [act, rising_iff, State.level, h]

theorem act_outputLatch_lat (h : s.lvl.oLatch = false) : (act c (.set .oLatch true) s).lat = s.sh := by
  simp [act, rising_iff, State.level, h]

/-- The bit that enters is the free value of the instant (D15). -/
theorem act_inputClock_p (h : s.lvl.iClk = false) :
    (act c (.set .iClk true) s).p = shiftIn s.p (c.fillBit s.instant) := by
  simp [act, rising_iff, State.level, h]

end Edges

/-- Settles O10, from the shift bit by bit; a write of `O_CLK` makes no edge that the latches or `DEV_IN` see. -/
theorem outputClockShifts : Obligations.OutputClockShifts := by
  intro s h
  refine ⟨_, exec_set_of_ne_iClk rfl (by decide) true s, ?_, fun i hi => ?_, act_set_lat_of_no_edge _ (by simp),
    act_set_p_of_no_edge _ (by simp) (by simp)⟩
  · rw [act_outputClock_sh _ h, shiftOut_bit_zero]
  · rw [act_outputClock_sh _ h, shiftOut_bit_succ _ _ i hi]

/-- Settles O11: of all line accesses the rising edge of `O_LATCH` alone reaches the latches. -/
theorem outputLatchTransfers : Obligations.OutputLatchTransfers := by
  have answers := exec_set_of_ne_iClk (l := .oLatch) rfl (by decide)
  have keepsSh : ∀ v s, (act Config.board (.set .oLatch v) s).sh = s.sh := fun v s =>
    act_set_sh_of_no_edge _ (by simp)
  refine ⟨fun s h => ?rises, fun s h => ?staysHigh, fun s => ?falls, fun s v => ?clock, fun s t l v hl h => ?set,
    fun s t l h => ?get, fun s t n h => ?wait⟩
  case rises => exact ⟨_, answers true s, act_outputLatch_lat _ h, keepsSh true s⟩
  case staysHigh => exact ⟨_, answers true s, act_set_lat_of_no_edge _ (by simp [h]), keepsSh true s⟩
  case falls => exact ⟨_, answers false s, act_set_lat_of_no_edge _ (by simp), keepsSh false s⟩
  case clock => exact ⟨_, exec_set_of_ne_iClk rfl (by decide) v s, act_set_lat_of_no_edge _ (by simp)⟩
  case set =>
    rw [exec_set_next h]
    exact act_set_lat_of_no_edge _ fun ⟨e, _⟩ => hl e
  case get =>
    obtain ⟨-, -, hlat, -⟩ := act_get_sameOutput Config.board s l
    rw [exec_get_next h, hlat]
  case wait =>
    obtain ⟨-, -, hlat, -⟩ := act_wait_sameOutput Config.board s n
    rw [exec_wait_next h, hlat]

/-- Settles O12: with `I_LOAD` high the clock meets no objection, and only its rising edge shifts (C3). -/
theorem inputClockShifts : Obligations.InputClockShifts := by
  refine ⟨fun s hclk hload => ?rises, fun s => ?falls⟩
  case rises =>
    refine ⟨_, exec_set_of_no_objection (objection_set rfl (.inr (.inr (.inr hload)))), fun i hi => ?_,
      act_set_sh_of_no_edge _ (by simp), act_set_lat_of_no_edge _ (by simp)⟩
    rw [act_inputClock_p _ hclk, shiftIn_bit _ _ i hi]
  case falls =>
    exact ⟨_, exec_set_of_no_objection (objection_set rfl (.inr (.inl rfl))),
      act_set_p_of_no_edge _ (by simp) (by simp)⟩

end Sys2Proof.Proofs

/-! PROOFS of the family of the exceptions: the calls an idle core answers, one step each, and the refusal that an
operation meets while another runs. -/

namespace Sys2Proof.Proofs

open Sys2Proof Sys2Proof.Machine Sys2Proof.Safety

/-! ### No operation begins while another runs (R146, D25) -/

theorem exec_arm_of_running {s : State} (h : s.upc ≠ .idle) (st : SeqState) :
    exec st.arm s = .refused .operationRunning := by
  obtain ⟨a, ha⟩ := exec_arm_eq_whenSelected st s
  exact ha.trans (whenIdle_of_running h _)

/-- Settles O54: a tick is the arm that the state selects, and every operation is guarded by `whenIdle`. -/
theorem nothingBeginsWhileRunning : Obligations.NothingBeginsWhileRunning := fun s h =>
  ⟨fun a => (exec_tick_eq_arm a s).trans (exec_arm_of_running h s.state), exec_arm_of_running h,
    fun _ => whenIdle_of_running h _, fun _ => whenIdle_of_running h _, fun _ => whenIdle_of_running h _⟩

/-! ### What an idle core does next (R147, R148) -/

/-- The argument bits of a tick word are ignored (R61). -/
theorem exec_tick_arg (a b : Byte) (s : State) : exec (.tick a) s = exec (.tick b) s := rfl

/-- An idle core with nothing on the bench takes the call that the host makes next. -/
theorem advance_of_call {c : Params} {s : State} {call : Call} {rest : List Move} (hu : s.upc = .idle)
    (hp : BenchEmpty s) (hm : s.moves = .host call :: rest) :
    advance c s = runCall c call { s with moves := rest } :=
  advance_of_move hu hp hm

/-- Settles O5: in the view of whole operations an instruction is its `exec`, from the bench and from the host. -/
theorem stepRunsDecodedInstruction : Obligations.StepRunsDecodedInstruction := by
  refine ⟨fun s code rest i hu hg hp hd => ?bench, fun s rest a hu hg hp hm => ?host⟩
  case bench =>
    rw [step_of_placed hu hp hd, exec_eq_operate]
    exact runInstr_whole (s := { s with placed := rest }) hg i
  case host =>
    rw [step_eq_advance, advance_of_call hu hp hm, exec_tick_arg a 0x00#8, exec_eq_operate]
    exact runInstr_whole (s := { s with moves := rest }) hg _

/-- Settles O7, from the step of an idle core that finds neither a code nor a move. -/
theorem stepWaitsWithoutCall : Obligations.StepWaitsWithoutCall := fun _ hu hp hm => advance_of_nothing hu hp hm

/-! ### The reads of the host (R148, R149, R151) -/

theorem halted_eq_decide (s : State) : s.halted = decide (s.state = .halted) := by
  cases h : s.state <;> simp [State.halted, h]

theorem readCommitted_of_none {s : State} (h : s.committed = none) : readCommitted s = .refused .committedNone := by
  simp only [readCommitted, h]

theorem readLineLevels_of_readback {c : Params} (h : c.diagReadback = true) (s : State) :
    readLineLevels c s = .next (giveBack (lineLevels s) s) := by
  simp [readLineLevels, h]

theorem readLineLevels_of_no_readback {c : Params} (h : c.diagReadback = false) (s : State) :
    readLineLevels c s = .refused .noReadback := by
  simp [readLineLevels, h]

/-- Settles O56: a step is the read itself, with the call taken off. -/
theorem hostReadsOfIdleCore : Obligations.HostReadsOfIdleCore := by
  refine ⟨fun s rest hu hp hm => ?state, fun s rest hu hp hm => ?halted, fun s rest m hu hp hm hc => ?committed,
    fun s rest hu hp hm hc => ?noCommitted, fun c s rest hu hp hm hr => ?lineLevels,
    fun c s rest hu hp hm hr => ?noLineLevels⟩
  case state => exact advance_of_call hu hp hm
  case halted =>
    rw [← halted_eq_decide]
    exact advance_of_call hu hp hm
  case committed => exact (advance_of_call hu hp hm).trans (readCommitted_of_some hc)
  case noCommitted => exact (advance_of_call hu hp hm).trans (readCommitted_of_none hc)
  case lineLevels => exact (advance_of_call hu hp hm).trans (readLineLevels_of_readback hr _)
  case noLineLevels => exact (advance_of_call hu hp hm).trans (readLineLevels_of_no_readback hr _)

end Sys2Proof.Proofs

/-! PROOFS of the family of reset and the hazards: where a run of the host leaves the sequencer, and what reset and a
start of the process give. -/

namespace Sys2Proof.Proofs

open Sys2Proof Sys2Proof.Machine Sys2Proof.Safety

/-! ### Runs of `TICK` and `STATUS` (R148, R152, R183) -/

theorem tickCount_cons (m : Move) (rest : List Move) : tickCount (m :: rest) = tickCount [m] + tickCount rest := by
  unfold tickCount
  rw [← List.count_append, List.singleton_append]

theorem onlyTickOrStatus_cons {m : Move} {rest : List Move} :
    OnlyTickOrStatus (m :: rest) ↔ (m = .host .tick ∨ m = .host .status) ∧ OnlyTickOrStatus rest :=
  List.forall_mem_cons

theorem afterTicks_of_sameSequencer {n : Nat} {s t : State} (h : AfterTicks n s) (hst : SameSequencer s t) :
    AfterTicks n t :=
  afterTicks_iff.mpr (sameSequencer_trans (afterTicks_iff.mp h) hst)

/-- A row of the run table and the next one, as the update of a tick has them. -/
theorem afterTicks_tickUpdate {n : Nat} {s : State} (hu : s.upc = .idle) (h : AfterTicks n s) :
    AfterTicks (n + 1) (tickUpdate s) := by
  obtain ⟨t, ht, hrow, -⟩ := tickFollowsTheRunTable n 0x00#8 s hu h
  exact afterTicks_of_sameSequencer hrow (sameSequencer_symm (exec_tick_sequencer ht))

/-- The host makes one of the two calls: the core is idle after it, one row further if the call was a `TICK`. -/
theorem step_of_tick_or_status {n : Nat} {s : State} {m : Move} {rest : List Move} (hu : s.upc = .idle)
    (hg : s.grain = .operation) (hp : BenchEmpty s) (hm : s.moves = m :: rest)
    (hcall : m = .host .tick ∨ m = .host .status) (hn : AfterTicks n s) :
    ∃ t, step s = .next t ∧ AfterTicks (n + tickCount [m]) t ∧ SameOutside { s with moves := rest } t := by
  obtain rfl | rfl := hcall
  · obtain ⟨t, ht, hticks, hout⟩ := step_ticks hu hg hp hm
    exact ⟨t, ht, afterTicks_of_sameSequencer (afterTicks_tickUpdate hu hn) hticks.sequencer, hout⟩
  · obtain ⟨t, ht, hreports, hout⟩ := step_reports hu hg hp hm
    exact ⟨t, ht, afterTicks_of_sameSequencer hn hreports.sequencer, hout⟩

/-- From any row of the run table the calls are all answered, and each `TICK` among them is one row. -/
theorem run_of_onlyTickOrStatus {moves : List Move} (hcalls : OnlyTickOrStatus moves) {n : Nat} {s : State}
    (hm : s.moves = moves) (hu : s.upc = .idle) (hg : s.grain = .operation) (hp : BenchEmpty s)
    (hn : AfterTicks n s) :
    ∃ t, Host.Core.run core moves.length s = .next t ∧ t.moves = [] ∧ t.upc = .idle ∧
      AfterTicks (n + tickCount moves) t := by
  induction moves generalizing n s with
  | nil => exact ⟨s, core_run_zero s, hm, hu, hn⟩
  | cons m rest ih =>
    obtain ⟨hcall, hrest⟩ := onlyTickOrStatus_cons.mp hcalls
    obtain ⟨u, hstep, hrow, hupc, hmoves, hplaced, hgrain⟩ := step_of_tick_or_status hu hg hp hm hcall hn
    obtain ⟨t, hrun, hend⟩ := ih hrest hmoves (hupc.trans hu) (hgrain.trans hg) (hplaced.trans hp) hrow
    refine ⟨t, (core_run_succ _ hstep).trans hrun, ?_⟩
    rwa [tickCount_cons, ← Nat.add_assoc]

/-- Settles O37: the run from row 0 of the run table, whose rows from the nineteenth on are HALTED. -/
theorem runReachesHaltedUnderAnyInterleaving : Obligations.RunReachesHaltedUnderAnyInterleaving := by
  intro s hu hg hp hn hcalls
  obtain ⟨t, hrun, hmoves, hupc, hrow⟩ := run_of_onlyTickOrStatus hcalls rfl hu hg hp hn
  rw [Nat.zero_add] at hrow
  refine ⟨t, hrun, hmoves, hupc, hrow, fun hle => ?_⟩
  obtain ⟨hstate, -, hmask⟩ := (afterTicks_of_le hle).mp hrow
  exact ⟨hstate, hmask⟩

/-! ### Reset and a start of the process (R161, R162, R164) -/

/-- Settles O57: the fields of the state that reset gives. -/
theorem resetValues : Obligations.ResetValues := ⟨rfl, rfl, rfl, rfl, rfl, rfl⟩

/-- An idle core with nothing on the bench takes the start of the process that comes next, whatever its state. -/
theorem step_of_processStart {s : State} {rest : List Move} (hu : s.upc = .idle) (hp : BenchEmpty s)
    (hm : s.moves = .processStart :: rest) : step s = .next (restart { s with moves := rest }) :=
  advance_of_move hu hp hm

/-- Settles O58: the step is `restart`, which writes the registers of the core and nothing else. -/
theorem restartKeepsLinesAndDevices : Obligations.RestartKeepsLinesAndDevices := fun _ _ hu hp hm =>
  ⟨_, step_of_processStart hu hp hm, restart_state _, restart_cursor _, restart_mask _, restart_committed _,
    restart_upc _, restart_trace _, restart_lvl _, restart_sh _, restart_lat _, restart_p _⟩

end Sys2Proof.Proofs
